-- ==== Sys2Proof/Word.lean ====
section
/-! DEFINITION. The two word types of the block: the 8-bit byte of the Byte Buffer (R13) and the
16-bit assembled displacement or immediate (R14). Everything computed from them stands in Decode.lean
and under Machine/. -/

namespace Sys2Proof

/-- R13: the buffer is a sequence of 8-bit values. -/
abbrev Byte := BitVec 8

/-- R14: a displacement or an immediate is 16 bits wide after assembly. -/
abbrev Half := BitVec 16

end Sys2Proof
end

