-- ==== Sys2Proof/Config.lean ====
section
/-! DEFINITION. What an implementation of the block fixes and the spec leaves OPEN: the width of the
cursor register (R15, D2). Nothing here holds a number of the model's own: every definition and claim
takes a Config as an argument. The block has no free value (93_implementation_defined.md names none that
any rule reads). -/

namespace Sys2Proof

/-- The OPEN parameters of a hardware build that some rule mentions. `CURSOR_WIDTH` is one (R15, D2);
`RESET_STYLE` (D21) is used by no rule and is therefore not held. -/
structure Config where
  cursorWidth : Nat
  deriving DecidableEq, Repr

/-- R15: a build with this cursor width may hold a buffer of `n` bytes, `N ≤ 2^CURSOR_WIDTH − 1`. -/
abbrev Config.admits (c : Config) (n : Nat) : Prop := n ≤ 2 ^ c.cursorWidth - 1

end Sys2Proof
end

