-- ==== Sys2Proof/Syntax.lean ====
section
/-! DEFINITION. The instruction set of R2 and R66: the two resolvers, the classifier's three outputs,
and one constructor of Instr per row of spec/opcode_table.json. A displacement or an immediate is held as
the 16-bit value R61 and R62 assemble, whatever its width in the encoding (log entry 17). -/

namespace Sys2Proof

/-- R22: the resolver chosen in `Dispatch`. -/
inductive Sel where
  /-- the register/memory move resolver (R100) -/
  | rm
  /-- the immediate-to-register resolver (R110) -/
  | imm
  deriving DecidableEq, Repr

/-- R22: the classifier's output. `known` carries the opcode class's resolver, so that the class RM or
IMM of a byte and the resolver that R85 hands on are the same datum. -/
inductive OpClass where
  | known (sel : Sel)
  | unknown
  deriving DecidableEq, Repr

/-- One constructor per row of the opcode table (R66). `d` is the direction bit, `w` the width bit,
`reg` the register id and `rm` the r/m id (R58, R60). -/
inductive Instr where
  /-- MOV.M0 (R101): memory operand, no displacement -/
  | movM0 (d w : BitVec 1) (reg rm : BitVec 3)
  /-- MOV.M8 (R102): memory operand, 8-bit displacement, zero-extended -/
  | movM8 (d w : BitVec 1) (reg rm : BitVec 3) (disp : Half)
  /-- MOV.M16 (R103): memory operand, 16-bit displacement -/
  | movM16 (d w : BitVec 1) (reg rm : BitVec 3) (disp : Half)
  /-- MOV.RR (R104): register to register -/
  | movRR (d w : BitVec 1) (reg rm : BitVec 3)
  /-- MOV.I8 (R111): 8-bit immediate to register, zero-extended -/
  | movI8 (reg : BitVec 3) (imm : Half)
  /-- MOV.I16 (R112): 16-bit immediate to register -/
  | movI16 (reg : BitVec 3) (imm : Half)
  deriving DecidableEq, Repr

end Sys2Proof
end

