-- ==== Sys2Proof/WellFormed.lean ====
section
/-! DEFINITION. Which terms of Instr stand for an instruction: the two 8-bit forms hold a value in
0 .. 255 (R61, R62, R96). Every other field is exactly as wide as its place in the encoding, and inside
the two classes every value of every field is legal (R65), so nothing else is checked. -/

namespace Sys2Proof

/-- R61, R62: an assembled value that comes from one zero-extended byte. -/
def fitsByte (v : Half) : Bool := decide (v.toNat ≤ 255)

/-- An instruction the encoding of R59 and R60 can hold. -/
def Instr.wf : Instr → Bool
  | .movM0 _ _ _ _ => true
  | .movM8 _ _ _ _ disp => fitsByte disp
  | .movM16 _ _ _ _ _ => true
  | .movRR _ _ _ _ => true
  | .movI8 _ imm => fitsByte imm
  | .movI16 _ _ => true

end Sys2Proof
end

