-- ==== Sys2Proof/Decode.lean ====
section
/-! DEFINITION. The encoding, read both ways. The Field Extractor (R70), the classifier (R77) and the
length function (R78) of the dispatch mux, the assembly of 16-bit values (R20, R45), the decoder (total on
any bytes, refusing by name in the order of R123), the encoder (from the patterns of R59 and R60), and
the opcode table of R66 as data. -/

namespace Sys2Proof

/-! ## Assembly of values (R20, R45, R61, R62) -/

/-- R20 `zext_16`: never sign-extended (R61, R62, D12). -/
def zext16 (b : Byte) : Half := b.setWidth 16

/-- R20 `le16(lo, hi) = zext_16(lo) | (zext_16(hi) << 8)`. -/
def le16 (lo hi : Byte) : Half := zext16 lo ||| (zext16 hi <<< 8)

/-- The byte of a 16-bit value at the lower offset (R45). -/
def loByte (v : Half) : Byte := v.extractLsb' 0 8

/-- The byte of a 16-bit value at the higher offset (R45). -/
def hiByte (v : Half) : Byte := v.extractLsb' 8 8

/-! ## Field Extractor (R70) -/

/-- R28, R70: the Decoded Field Set in the layout of format RM (R58). -/
structure FieldSet where
  opc6 : BitVec 6
  d : BitVec 1
  w : BitVec 1
  mod : BitVec 2
  reg : BitVec 3
  rm : BitVec 3
  deriving DecidableEq, Repr

/-- R70: the fields in the layout of format IMM (R60). -/
structure ImmFieldSet where
  opc4 : BitVec 4
  wi : BitVec 1
  regi : BitVec 3
  deriving DecidableEq, Repr

/-- R70 `Extract(b0, b1)`; it never fails (R71). -/
def extract (b0 b1 : Byte) : FieldSet where
  opc6 := b0.extractLsb' 2 6
  d := b0.extractLsb' 1 1
  w := b0.extractLsb' 0 1
  mod := b1.extractLsb' 6 2
  reg := b1.extractLsb' 3 3
  rm := b1.extractLsb' 0 3

/-- R70 `ExtractImm(b0)`; it never fails (R71). -/
def extractImm (b0 : Byte) : ImmFieldSet where
  opc4 := b0.extractLsb' 4 4
  wi := b0.extractLsb' 3 1
  regi := b0.extractLsb' 0 3

/-! ## Dispatch mux: classifier and length (R77, R78) -/

/-- R77 `Classify(b0)`, with the two patterns of R57. -/
def classify (b0 : Byte) : OpClass :=
  if b0.extractLsb' 2 6 = 0b100010#6 then .known .rm
  else if b0.extractLsb' 4 4 = 0b1011#4 then .known .imm
  else .unknown

/-- R78 `Len(sel, b0, b1)`; for class IMM it does not depend on `b1`. -/
def instrLen (sel : Sel) (b0 b1 : Byte) : Nat :=
  match sel with
  | .rm => 2 + (if (extract b0 b1).mod = 0b01#2 then 1 else 0)
             + (if (extract b0 b1).mod = 0b10#2 then 2 else 0)
  | .imm => 2 + (extractImm b0).wi.toNat

/-! ## The instruction as syntax: class, length, row -/

/-- The class an instruction belongs to, that is, the resolver R93 sends it to. -/
def Instr.sel : Instr → Sel
  | .movM0 _ _ _ _ => .rm
  | .movM8 _ _ _ _ _ => .rm
  | .movM16 _ _ _ _ _ => .rm
  | .movRR _ _ _ _ => .rm
  | .movI8 _ _ => .imm
  | .movI16 _ _ => .imm

/-- The instruction's length in bytes: the length column of R66. -/
def Instr.len : Instr → Nat
  | .movM0 _ _ _ _ => 2
  | .movM8 _ _ _ _ _ => 3
  | .movM16 _ _ _ _ _ => 4
  | .movRR _ _ _ _ => 2
  | .movI8 _ _ => 2
  | .movI16 _ _ => 3

/-- The instruction's row of the opcode table (R66). -/
def Instr.mnemonic : Instr → String
  | .movM0 _ _ _ _ => "MOV.M0"
  | .movM8 _ _ _ _ _ => "MOV.M8"
  | .movM16 _ _ _ _ _ => "MOV.M16"
  | .movRR _ _ _ _ => "MOV.RR"
  | .movI8 _ _ => "MOV.I8"
  | .movI16 _ _ => "MOV.I16"

/-! ## Decoder -/

/-- Why no instruction is read from some bytes. -/
inductive DecodeError where
  /-- no byte remains: the successful end of a session (R84), not an error of the block -/
  | noBytes
  /-- R114: the bytes remaining cannot hold the next instruction -/
  | truncated
  /-- R116: the first byte is in neither opcode class; it is the offending byte -/
  | unknownOpcode (b0 : Byte)
  deriving DecidableEq, Repr

/-- What the decoder answers: an instruction with the bytes that follow it, or a refusal by name. -/
inductive Decoded where
  | ok (i : Instr) (rest : List Byte)
  | refused (e : DecodeError)
  deriving DecidableEq, Repr

/-- R59, R61, R100: the four exhaustive mode values of format RM and the trailing bytes each takes.
mod = 00 takes none for every rm, rm = 110 included (R65, C4). -/
def decodeRM (f : FieldSet) (rest : List Byte) : Decoded :=
  if f.mod = 0b00#2 then .ok (.movM0 f.d f.w f.reg f.rm) rest
  else if f.mod = 0b01#2 then
    match rest with
    | b2 :: rest => .ok (.movM8 f.d f.w f.reg f.rm (zext16 b2)) rest
    | _ => .refused .truncated
  else if f.mod = 0b10#2 then
    match rest with
    | b2 :: b3 :: rest => .ok (.movM16 f.d f.w f.reg f.rm (le16 b2 b3)) rest
    | _ => .refused .truncated
  else .ok (.movRR f.d f.w f.reg f.rm) rest

/-- R60, R62, R110: the two widths of format IMM; `b1` is data here. -/
def decodeIMM (g : ImmFieldSet) (b1 : Byte) (rest : List Byte) : Decoded :=
  if g.wi = 1#1 then
    match rest with
    | b2 :: rest => .ok (.movI16 g.regi (le16 b1 b2)) rest
    | _ => .refused .truncated
  else .ok (.movI8 g.regi (zext16 b1)) rest

/-- The instruction at the head of some bytes, or the name of what stops it, in the order of R123: no
byte, a lone byte (whatever its value), an unknown opcode, too few bytes for the variant. -/
def decode : List Byte → Decoded
  | [] => .refused .noBytes
  | [_] => .refused .truncated
  | b0 :: b1 :: rest =>
    match classify b0 with
    | .unknown => .refused (.unknownOpcode b0)
    | .known .rm => decodeRM (extract b0 b1) rest
    | .known .imm => decodeIMM (extractImm b0) b1 rest

/-! ## Encoder -/

/-- `b0` of format RM: pattern `100010dw` (R58). -/
def headRM (d w : BitVec 1) : Byte := 0b100010#6 ++ d ++ w

/-- `b1` of format RM: pattern `mmrrrbbb` (R58). -/
def modRM (mod : BitVec 2) (reg rm : BitVec 3) : Byte := mod ++ reg ++ rm

/-- `b0` of format IMM: pattern `1011wrrr` (R60). -/
def headIMM (w : BitVec 1) (reg : BitVec 3) : Byte := 0b1011#4 ++ w ++ reg

/-- The bytes of an instruction, from the lowest offset up (R46, R59, R60). -/
def encode : Instr → List Byte
  | .movM0 d w reg rm => [headRM d w, modRM 0b00#2 reg rm]
  | .movM8 d w reg rm disp => [headRM d w, modRM 0b01#2 reg rm, loByte disp]
  | .movM16 d w reg rm disp => [headRM d w, modRM 0b10#2 reg rm, loByte disp, hiByte disp]
  | .movRR d w reg rm => [headRM d w, modRM 0b11#2 reg rm]
  | .movI8 reg imm => [headIMM 0#1 reg, loByte imm]
  | .movI16 reg imm => [headIMM 1#1 reg, loByte imm, hiByte imm]

/-- R95 `EncodeRR(d, w, reg, rm) = [0x88 | (d << 1) | w, 0xC0 | (reg << 3) | rm]`, as it is written
there. -/
def encodeRR (d w : BitVec 1) (reg rm : BitVec 3) : List Byte :=
  [0x88#8 ||| (d.setWidth 8 <<< 1) ||| w.setWidth 8,
   0xC0#8 ||| (reg.setWidth 8 <<< 3) ||| rm.setWidth 8]

/-! ## The opcode table (R66) -/

/-- One row of R66: mnemonic, match and mask on `H = (b0 << 8) | b1`, length. -/
structure OpcodeRow where
  mnemonic : String
  pattern : BitVec 16
  mask : BitVec 16
  len : Nat
  deriving DecidableEq, Repr

/-- The six rows of R66. -/
def opcodeTable : List OpcodeRow :=
  [⟨"MOV.M0", 0x8800#16, 0xFCC0#16, 2⟩,
   ⟨"MOV.M8", 0x8840#16, 0xFCC0#16, 3⟩,
   ⟨"MOV.M16", 0x8880#16, 0xFCC0#16, 4⟩,
   ⟨"MOV.RR", 0x88C0#16, 0xFCC0#16, 2⟩,
   ⟨"MOV.I8", 0xB000#16, 0xF800#16, 2⟩,
   ⟨"MOV.I16", 0xB800#16, 0xF800#16, 3⟩]

/-- R66: `H` puts the first byte in the high half; it is a convention for matching, no memory access. -/
def matchWord (b0 b1 : Byte) : BitVec 16 := b0 ++ b1

/-- The row's pattern stands in the two header bytes. -/
def OpcodeRow.covers (r : OpcodeRow) (b0 b1 : Byte) : Bool :=
  decide (matchWord b0 b1 &&& r.mask = r.pattern)

/-! ## A table word as bytes -/

/-- The bytes, lowest offset first, of an instruction whose bits are `w` in the table's numbering. The
table numbers the two header bytes as `H = (b0 << 8) | b1` (R66), so its first word is 16 bits wide with
`b0` in bits 15..8 and `b1` in bits 7..0; `b2` and `b3` count on from it as bits 23..16 and 31..24 (log
entry 11). Bits from `nbits` up are 0. -/
def tableBytes (nbits w : Nat) : List Byte :=
  let v := w % 2 ^ nbits
  [BitVec.ofNat 8 (v / 2 ^ 8), BitVec.ofNat 8 v, BitVec.ofNat 8 (v / 2 ^ 16), BitVec.ofNat 8 (v / 2 ^ 24)]

/-- The instruction the decoder reads from a table word. -/
def decodeTableWord (nbits w : Nat) : Option Instr :=
  match decode (tableBytes nbits w) with
  | .ok i _ => some i
  | .refused _ => none

end Sys2Proof
end

