-- ==== Sys2Proof/Machine/State.lean ====
section
/-! DEFINITION. Every piece of state the spec gives the block (10_state.md R23 to R27), as plain data,
the reasons a step can stop, and the state after reset (R40). STATUS (R35) is a view of this state and is
computed in Machine/Flags.lean; the two ROMs (R37) are constants and stand in Machine/Operands.lean. -/

namespace Sys2Proof.Machine

/-- R23, R41: the Byte Buffer. `size` is `N`; the addresses are `0 .. size − 1`. `cells` lists the bytes
in one canonical form (`Memory.wf` in Ops.lean); an offset below `size` that is not listed holds
`Memory.unlisted` (log entry 3). -/
structure Memory where
  size : Nat
  cells : List Host.Cell
  deriving DecidableEq, Repr

/-- R25: the driver state `S`. -/
inductive Driver where
  /-- about to classify the instruction at the cursor -/
  | start
  /-- about to call the resolver the classifier chose; `sel` is the only datum carried over (R29) -/
  | dispatch (sel : Sel)
  /-- `Terminal(success)` -/
  | done
  /-- `Terminal(error)` -/
  | error
  deriving DecidableEq, Repr

/-- R113: the two kinds of error. -/
inductive ErrKind where
  | truncated
  | unknownOpcode
  deriving DecidableEq, Repr

/-- R27: the error record's triple. -/
structure ErrorRecord where
  kind : ErrKind
  offset : Nat
  byte : Byte
  deriving DecidableEq, Repr

/-- R92 `RecRM`. -/
structure RecRM where
  off : Nat
  len : Nat
  d : BitVec 1
  w : BitVec 1
  mod : BitVec 2
  reg : BitVec 3
  rm : BitVec 3
  disp : Option Half
  deriving DecidableEq, Repr

/-- R92 `RecIMM`. -/
structure RecIMM where
  off : Nat
  len : Nat
  w : BitVec 1
  reg : BitVec 3
  imm : Half
  deriving DecidableEq, Repr

/-- R92: the decoded record, in one of two shapes. -/
inductive DecodedRecord where
  | regMem (r : RecRM)
  | immReg (r : RecIMM)
  deriving DecidableEq, Repr

/-- R26: one entry of the output log, a decoded record and its Instruction Line. -/
structure Entry where
  record : DecodedRecord
  line : String
  deriving DecidableEq, Repr

/-- The state of one decode session. -/
structure State where
  /-- R23: `B` and `N`; no step changes it -/
  mem : Memory
  /-- R24, R33: the cursor `C` -/
  cursor : Nat
  /-- R25: the driver state `S` -/
  driver : Driver
  /-- R26: the output log `O`, oldest entry first -/
  log : List Entry
  /-- R27: the error record `E` -/
  err : Option ErrorRecord
  deriving DecidableEq, Repr

/-- Why a step answers no next state. The two errors of R113 are NOT here: each is a next state with
`S = Error` (R118). All four are safe: the model stops where the spec has no transition. -/
inductive Fault where
  /-- A read at an offset the buffer does not have (R42, D19). Raised by `fetch` and `raise`; no
  reachable state raises it. Safe. -/
  | readPastEnd
  /-- `S` is not `Dispatch` of the class of the instruction at hand, or the bytes at the cursor are not of
  the class `S` names (R87, R142; I1: a model gives such fields no meaning). Raised by `fetch` and by
  every meaning; no reachable state raises it. Safe. -/
  | dispatchMismatch
  /-- A step from `Done`, which has no outgoing transition (R89, R144): the session is over, and it
  succeeded. Raised by `step`. Safe. -/
  | sessionDone
  /-- A step from `Error`, which has no outgoing transition (R89, R120): the session is over, and it
  failed. Raised by `step`. Safe. -/
  | sessionFailed
  deriving DecidableEq, Repr

/-- Why an instruction has no meaning. -/
inductive Refusal where
  /-- Raised by `exec` for an instruction that is not modelled yet; no arm of this model raises it.
  Safe. -/
  | notModelled (mnemonic : String)
  deriving DecidableEq, Repr

/-- What a step, a meaning or a shared operation answers. -/
abbrev StepResult := Host.Outcome State Fault Refusal

/-- R40: the state after reset. `B` and `N` are the host's input; this is the session whose input is
empty (`N` = 0 is allowed, R12; log entry 2). `State.session` in Session.lean is the same over any input. -/
def State.reset : State where
  mem := ⟨0, []⟩
  cursor := 0
  driver := .start
  log := []
  err := none

end Sys2Proof.Machine
end

