-- ==== Sys2Proof/Machine/Operands.lean ====
section
/-! DEFINITION. The two lookup ROMs (R72, R73) and the text functions built on them (R21, R74 to R76,
R92 Render): every operand form of R68. -/

namespace Sys2Proof.Machine

/-- R72 `REG_NAME[w][id]`. Six entries are the source's (al, ax, ah, sp, cx, bx); the other ten are the
spec's decision D10 (log entry 8). -/
def regNameRom : Vector (Vector String 8) 2 :=
  #v[#v["al", "cl", "dl", "bl", "ah", "ch", "dh", "bh"],
     #v["ax", "cx", "dx", "bx", "sp", "bp", "si", "di"]]

/-- R73 `EA_TEXT[rm]`. Entries 0, 6 and 7 are the source's; the other five are the spec's decision D11
(log entry 8). Entry 6 is "bp" at every mod (C4). -/
def eaTextRom : Vector String 8 :=
  #v["bx + si", "bx + di", "bp + si", "bp + di", "si", "di", "bp", "bx"]

/-- R74 `RegName(w, id)`. -/
def regName (w : BitVec 1) (id : BitVec 3) : String := regNameRom[w.toFin][id.toFin]

/-- R73: the addressing expression of an r/m id. -/
def eaText (rm : BitVec 3) : String := eaTextRom[rm.toFin]

/-- One decimal digit as its ASCII character. -/
def digitChar (n : Nat) : Char := Char.ofNat (48 + n)

/-- The decimal digits of `n`, most significant first, at most `fuel` of them. -/
def decDigits : Nat → Nat → List Char
  | 0, _ => []
  | fuel + 1, n => if n < 10 then [digitChar n] else decDigits fuel (n / 10) ++ [digitChar (n % 10)]

/-- R21 `Dec(v)` of a 16-bit value: unsigned, no sign, no leading zeros, "0" for zero (D9). Five digits
hold every 16-bit value. -/
def dec (v : Half) : String := String.ofList (decDigits 5 v.toNat)

/-- R75 `MemText`: mod 00 has no displacement and mod 01 and 10 always render theirs (R68). -/
def memText (rm : BitVec 3) : Option Half → String
  | none => "[" ++ eaText rm ++ "]"
  | some disp => "[" ++ eaText rm ++ " + " ++ dec disp ++ "]"

/-- R67, R76 `Line(dest, src)`. -/
def movLine (dest src : String) : String := "mov " ++ dest ++ ", " ++ src

/-- R100 `rmop`: the operand the r/m id selects, a register at mod 11 (same `w`) and memory otherwise. -/
def rmOperand (r : RecRM) : String :=
  if r.mod = 0b11#2 then regName r.w r.rm else memText r.rm r.disp

/-- R100: the line of a register/memory move; `d` = 1 makes the register operand the destination. -/
def renderRM (r : RecRM) : String :=
  if r.d = 1#1 then movLine (regName r.w r.reg) (rmOperand r)
  else movLine (rmOperand r) (regName r.w r.reg)

/-- R110: the line of an immediate-to-register move; the register is always the destination. -/
def renderIMM (r : RecIMM) : String := movLine (regName r.w r.reg) (dec r.imm)

/-- R92 `Render(rec)`. -/
def render : DecodedRecord → String
  | .regMem r => renderRM r
  | .immReg r => renderIMM r

/-- R92 `off`: where the instruction's first byte stands. -/
def DecodedRecord.off : DecodedRecord → Nat
  | .regMem r => r.off
  | .immReg r => r.off

/-- R92 `len`: the bytes consumed. -/
def DecodedRecord.len : DecodedRecord → Nat
  | .regMem r => r.len
  | .immReg r => r.len

/-- The resolver whose record this is (R92, R93). -/
def DecodedRecord.sel : DecodedRecord → Sel
  | .regMem _ => .rm
  | .immReg _ => .imm

end Sys2Proof.Machine
end

