-- ==== Sys2Proof/Machine/Ops.lean ====
section
/-! DEFINITION. The named operations over the buffer and the state: BufRead (R42) and the host's load
(R137), the cursor arithmetic (R80 to R82), Emit (R20), the one error entry `raise` (R118), the `Dispatch`
success transition shared by every instruction (R87), and the `Start` transitions (R84 to R86). The spec
has no return from an error (R122), so there is none here. -/

namespace Sys2Proof.Machine

/-! ## The Byte Buffer -/

/-- What an unlisted offset below `N` holds (log entry 3). -/
def Memory.unlisted : Byte := 0#8

/-- The byte the cells give an address. -/
def cellAt (a : Nat) : List Host.Cell → Byte
  | [] => Memory.unlisted
  | (a', b) :: rest => if a = a' then b else cellAt a rest

/-- R42 `BufRead(off)`: defined only for `off < N`. -/
def Memory.read (m : Memory) (off : Nat) : Option Byte :=
  if off < m.size then some (cellAt off m.cells) else none

/-- The canonical form of cells with addresses from `lo` up and below `hi`: addresses strictly rising,
no entry equal to what an unlisted offset holds. -/
def cellsWf (lo hi : Nat) : List Host.Cell → Bool
  | [] => true
  | (a, b) :: rest => decide (lo ≤ a) && decide (a < hi) && decide (b ≠ Memory.unlisted) && cellsWf (a + 1) hi rest

/-- The buffer is in its one canonical form. -/
def Memory.wf (m : Memory) : Bool := cellsWf 0 m.size m.cells

/-- Cells with the byte at `a` set, canonical form kept. -/
def insertCell (a : Nat) (b : Byte) : List Host.Cell → List Host.Cell
  | [] => if b = Memory.unlisted then [] else [(a, b)]
  | (a', b') :: rest =>
    if a < a' then (if b = Memory.unlisted then (a', b') :: rest else (a, b) :: (a', b') :: rest)
    else if a = a' then (if b = Memory.unlisted then rest else (a, b) :: rest)
    else (a', b') :: insertCell a b rest

/-- The HOST's store of one byte while it loads a buffer (R137, R138 load); the block has no write (R42). -/
def Memory.put (m : Memory) (a : Nat) (b : Byte) : Memory where
  size := max m.size (a + 1)
  cells := insertCell a b m.cells

/-- The host's store of consecutive bytes. -/
def Memory.putBytes (m : Memory) (a : Nat) : List Byte → Memory
  | [] => m
  | b :: bs => (m.put a b).putBytes (a + 1) bs

/-- R137: a buffer supplied in full; `N` is the number of bytes. -/
def Memory.load (bs : List Byte) : Memory := Memory.putBytes ⟨0, []⟩ 0 bs

/-! ## Reads at the cursor and offset arithmetic -/

/-- R20 `BufRead`. -/
def State.bufRead (s : State) (off : Nat) : Option Byte := s.mem.read off

/-- `n` consecutive bytes from `off`, one `BufRead` each (R49). -/
def State.readBytes (s : State) (off : Nat) : Nat → Option (List Byte)
  | 0 => some []
  | n + 1 =>
    match s.bufRead off, s.readBytes (off + 1) n with
    | some b, some bs => some (b :: bs)
    | _, _ => none

/-- R80: the remaining count `R = N − C`. -/
def State.remaining (s : State) : Nat := s.mem.size - s.cursor

/-- R81: an instruction of length `len` fits when `len ≤ R`. -/
def State.fits (s : State) (len : Nat) : Bool := decide (len ≤ s.remaining)

/-! ## State updates -/

/-- `S <- d`. -/
def State.setDriver (s : State) (d : Driver) : State := { s with driver := d }

/-- R82 `C <- C + len`. -/
def State.advance (s : State) (len : Nat) : State := { s with cursor := s.cursor + len }

/-- R20 `Emit(rec, line)`, with `line = Render(rec)` (R92). -/
def State.emit (s : State) (r : DecodedRecord) : State := { s with log := s.log ++ [⟨r, render r⟩] }

/-- R27: `E <- e`. -/
def State.setErr (s : State) (e : ErrorRecord) : State := { s with err := some e }

/-! ## Transitions -/

/-- R118 `raise K(offset, byte)`: the only error entry. `offset` is `C` and `byte` is `B[C]`; `C` and `O`
are unchanged. -/
def raise (k : ErrKind) (s : State) : StepResult :=
  match s.bufRead s.cursor with
  | some b => .next ((s.setErr ⟨k, s.cursor, b⟩).setDriver .error)
  | none => .fault .readPastEnd

/-- R87, R88: what every instruction does in `Dispatch` once its record is resolved. It emits the record
and its line, advances the cursor by the record's length and loops back to `Start`; where the instruction
does not fit it raises TRUNCATED and does none of that. -/
def dispatchRecord (r : DecodedRecord) (s : State) : StepResult :=
  if s.driver = .dispatch r.sel then
    if s.fits r.len then .next (((s.emit r).advance r.len).setDriver .start)
    else raise .truncated s
  else .fault .dispatchMismatch

/-- R84 to R86, in the order of R123: the transition from `Start`. Only `b0` is read (D14), and only
after the length tests (R42). -/
def startStep (s : State) : StepResult :=
  if s.remaining = 0 then .next (s.setDriver .done)
  else if s.remaining = 1 then raise .truncated s
  else
    match s.bufRead s.cursor with
    | none => .fault .readPastEnd
    | some b0 =>
      match classify b0 with
      | .known sel => .next (s.setDriver (.dispatch sel))
      | .unknown => raise .unknownOpcode s

end Sys2Proof.Machine
end

