-- ==== Sys2Proof/Machine/MovImmediate.lean ====
section
/-! DEFINITION. The immediate-to-register move family (42_mov_immediate.md): the two instructions of
ResolveIMM (R110), one per width bit. -/

namespace Sys2Proof.Machine

/-- R111 MOV.I8: w = 0, an 8-bit immediate zero-extended to 16 bits, length 2. -/
def execMovI8 (reg : BitVec 3) (imm : Half) (s : State) : StepResult :=
  dispatchRecord (.immReg ⟨s.cursor, 2, 0#1, reg, imm⟩) s

/-- R112 MOV.I16: w = 1, a 16-bit little-endian immediate, length 3. -/
def execMovI16 (reg : BitVec 3) (imm : Half) (s : State) : StepResult :=
  dispatchRecord (.immReg ⟨s.cursor, 3, 1#1, reg, imm⟩) s

end Sys2Proof.Machine
end

