-- ==== Sys2Proof/Machine/MovRegMem.lean ====
section
/-! DEFINITION. The register/memory move family (41_mov_regmem.md): the four instructions of ResolveRM
(R100), one per mod value. Each resolves its record at the cursor; the line is the record's Render, and
the rest is the `Dispatch` transition. -/

namespace Sys2Proof.Machine

/-- R101 MOV.M0: mod = 00, no displacement, length 2. -/
def execMovM0 (d w : BitVec 1) (reg rm : BitVec 3) (s : State) : StepResult :=
  dispatchRecord (.regMem ⟨s.cursor, 2, d, w, 0b00#2, reg, rm, none⟩) s

/-- R102 MOV.M8: mod = 01, an 8-bit displacement zero-extended to 16 bits, length 3. -/
def execMovM8 (d w : BitVec 1) (reg rm : BitVec 3) (disp : Half) (s : State) : StepResult :=
  dispatchRecord (.regMem ⟨s.cursor, 3, d, w, 0b01#2, reg, rm, some disp⟩) s

/-- R103 MOV.M16: mod = 10, a 16-bit little-endian displacement, length 4. -/
def execMovM16 (d w : BitVec 1) (reg rm : BitVec 3) (disp : Half) (s : State) : StepResult :=
  dispatchRecord (.regMem ⟨s.cursor, 4, d, w, 0b10#2, reg, rm, some disp⟩) s

/-- R104 MOV.RR: mod = 11, both operands registers of one width, length 2. -/
def execMovRR (d w : BitVec 1) (reg rm : BitVec 3) (s : State) : StepResult :=
  dispatchRecord (.regMem ⟨s.cursor, 2, d, w, 0b11#2, reg, rm, none⟩) s

end Sys2Proof.Machine
end

