-- ==== Sys2Proof/Machine/Dispatch.lean ====
section
/-! DEFINITION. The meaning of each instruction, one arm per constructor of Instr (R93, the dispatch mux). -/

namespace Sys2Proof.Machine

def exec (i : Instr) (s : State) : Host.Outcome State Fault Refusal :=
  match i with
  | .movM0 d w reg rm => Sys2Proof.Machine.execMovM0 d w reg rm s
  | .movM8 d w reg rm disp => Sys2Proof.Machine.execMovM8 d w reg rm disp s
  | .movM16 d w reg rm disp => Sys2Proof.Machine.execMovM16 d w reg rm disp s
  | .movRR d w reg rm => Sys2Proof.Machine.execMovRR d w reg rm s
  | .movI8 reg imm => Sys2Proof.Machine.execMovI8 reg imm s
  | .movI16 reg imm => Sys2Proof.Machine.execMovI16 reg imm s

end Sys2Proof.Machine
end

