-- ==== Sys2Proof/Machine/Fetch.lean ====
section
/-! DEFINITION. The front of the `Dispatch` transition (R87, R88): the header bytes are read again at the
unchanged cursor (R29), the length is checked before any trailing byte is read, and the bytes of exactly
one instruction are read and decoded. Also the placing of an instruction's bytes where the next step
fetches (withFetchWord's work). -/

namespace Sys2Proof.Machine

/-- What `Dispatch` finds at the cursor. -/
inductive Fetched where
  /-- a whole instruction, to be run -/
  | run (i : Instr)
  /-- none: the transition ends so -/
  | stop (o : StepResult)

/-- R87, R88 up to the call of the resolver. The class test never fails after a `Start` (R142). -/
def fetch (sel : Sel) (s : State) : Fetched :=
  match s.bufRead s.cursor, s.bufRead (s.cursor + 1) with
  | some b0, some b1 =>
    if classify b0 = .known sel then
      if s.fits (instrLen sel b0 b1) then
        match s.readBytes s.cursor (instrLen sel b0 b1) with
        | none => .stop (.fault .readPastEnd)
        | some bs =>
          match decode bs with
          | .ok i _ => .run i
          | .refused _ => .stop (.fault .dispatchMismatch)
      else .stop (raise .truncated s)
    else .stop (.fault .dispatchMismatch)
  | _, _ => .stop (.fault .readPastEnd)

/-- The driver state in which the very next step treats the instruction that begins with `b0`: `Dispatch`
of its class, as R85 leaves it, or `Start` where `b0` is in no class and the next step is to say so (R86). -/
def driverFor (b0 : Byte) : Driver :=
  match classify b0 with
  | .known sel => .dispatch sel
  | .unknown => .start

/-- The host's placing of an instruction's bytes at the cursor, with the driver past its classification
(log entry 12). -/
def State.placeInstr (s : State) (bs : List Byte) : State :=
  { s with mem := s.mem.putBytes s.cursor bs, driver := driverFor (bs.headD Memory.unlisted) }

end Sys2Proof.Machine
end

