-- ==== Sys2Proof/Machine/Step.lean ====
section
/-! DEFINITION. One step of the block: one transition of the Decode Driver (R10, R84 to R89). -/

namespace Sys2Proof.Machine

/-- R84 to R88, and R89: `Done` and `Error` have no outgoing transition. -/
def step (s : State) : Host.Outcome State Fault Refusal :=
  match s.driver with
  | .start => startStep s
  | .dispatch sel =>
    match fetch sel s with
    | .run i => exec i s
    | .stop o => o
  | .done => .fault .sessionDone
  | .error => .fault .sessionFailed

/-- `s` with the instruction of a table word placed where the next step fetches it. -/
def State.withFetchWord (s : State) (nbits w : Nat) : State := s.placeInstr (tableBytes nbits w)

end Sys2Proof.Machine
end

