-- ==== Sys2Proof/Machine/Flags.lean ====
section
/-! DEFINITION. The block has no status flags and no condition codes (R34), so no instruction computes
one. Its one status register is the read-only STATUS word of R35, every field of which is a projection of
the state; it is computed here and stored nowhere. The spec gives its fields' widths and values and no bit
positions, so it is a record (log entry 10). -/

namespace Sys2Proof.Machine

/-- R35: the fields of STATUS, at `CURSOR_WIDTH` = `cw` (R15). -/
structure Status (cw : Nat) where
  state : BitVec 2
  sel : BitVec 1
  errKind : BitVec 2
  errByte : BitVec 8
  errOffset : BitVec cw
  cursor : BitVec cw
  deriving DecidableEq, Repr

/-- R35 `state`. -/
def Driver.code : Driver → BitVec 2
  | .start => 0#2
  | .dispatch _ => 1#2
  | .done => 2#2
  | .error => 3#2

/-- R35 `sel`: meaningful only in `Dispatch`, reads 0 otherwise. -/
def Driver.selCode : Driver → BitVec 1
  | .dispatch .imm => 1#1
  | .dispatch .rm => 0#1
  | .start => 0#1
  | .done => 0#1
  | .error => 0#1

/-- R113, D6: the error codes. -/
def ErrKind.code : ErrKind → BitVec 2
  | .truncated => 1#2
  | .unknownOpcode => 2#2

/-- R35: STATUS of a build with configuration `c`. -/
def status (c : Config) (s : State) : Status c.cursorWidth where
  state := s.driver.code
  sel := s.driver.selCode
  errKind := match s.err with
    | none => 0#2
    | some e => e.kind.code
  errByte := match s.err with
    | none => 0#8
    | some e => e.byte
  errOffset := match s.err with
    | none => BitVec.ofNat c.cursorWidth 0
    | some e => BitVec.ofNat c.cursorWidth e.offset
  cursor := BitVec.ofNat c.cursorWidth s.cursor

end Sys2Proof.Machine
end

