-- ==== Sys2Proof/Machine/Session.lean ====
section
/-! DEFINITION. The host's side of a session (R134, R137, R138): load, reset, run and collect. None of it
is a step of the block. -/

namespace Sys2Proof.Machine

/-- R134: a reset keeps the loaded buffer and discards the session's `C`, `S`, `O` and `E`. -/
def State.restart (s : State) : State := { State.reset with mem := s.mem }

/-- R137, R138: load, then reset: the state in which a session over the bytes `bs` begins (R40). -/
def State.session (bs : List Byte) : State := { State.reset with mem := Memory.load bs }

/-- R144: the states in which a run has ended. -/
def State.terminal (s : State) : Bool := s.driver = .done || s.driver = .error

/-- R26 `lines(O)`: the observable output, in order. -/
def State.lines (s : State) : List String := s.log.map Entry.line

/-- R22, R90: how a session ends. -/
inductive SessionResult where
  | success (lines : List String)
  | failure (e : ErrorRecord)
  deriving DecidableEq, Repr

/-- R90, R121: the result the host collects; none before the end of the session. After an error the
result is the error, and the partial log is still held in `s.log`. -/
def State.result (s : State) : Option SessionResult :=
  match s.driver with
  | .done => some (.success s.lines)
  | .error => s.err.map .failure
  | .start => none
  | .dispatch _ => none

/-- `k` steps of the block, none where one of them is not taken. -/
def steps : Nat → State → Option State
  | 0, s => some s
  | k + 1, s =>
    match step s with
    | .next t => steps k t
    | .fault _ => none
    | .refused _ => none

end Sys2Proof.Machine
end

