-- ==== Sys2Proof/Safety.lean ====
section
/-! DEFINITION. The terms in which claims about whole sessions are stated: the record each instruction
owes (R92, R100, R110), the session invariant, and a reference decoder that reads a list of bytes in one
pass with no cursor, driver or buffer. -/

namespace Sys2Proof.Machine

/-! ## What an instruction owes the log -/

/-- R100, R110: the record of an instruction whose first byte stands at `off`. -/
def recordOf (off : Nat) : Instr → DecodedRecord
  | .movM0 d w reg rm => .regMem ⟨off, 2, d, w, 0b00#2, reg, rm, none⟩
  | .movM8 d w reg rm disp => .regMem ⟨off, 3, d, w, 0b01#2, reg, rm, some disp⟩
  | .movM16 d w reg rm disp => .regMem ⟨off, 4, d, w, 0b10#2, reg, rm, some disp⟩
  | .movRR d w reg rm => .regMem ⟨off, 2, d, w, 0b11#2, reg, rm, none⟩
  | .movI8 reg imm => .immReg ⟨off, 2, 0#1, reg, imm⟩
  | .movI16 reg imm => .immReg ⟨off, 3, 1#1, reg, imm⟩

/-- The log entry of an instruction at `off` (R26, R92). -/
def entryOf (off : Nat) (i : Instr) : Entry := ⟨recordOf off i, render (recordOf off i)⟩

/-- The entries of consecutive instructions, the first at `off` (R83). -/
def entriesFrom (off : Nat) : List Instr → List Entry
  | [] => []
  | i :: is => entryOf off i :: entriesFrom (off + i.len) is

/-! ## The session invariant -/

/-- R83: the log's instructions are contiguous from offset `lo` to offset `hi`. -/
def tiles (lo hi : Nat) : List Entry → Prop
  | [] => lo = hi
  | e :: es => e.record.off = lo ∧ tiles (lo + e.record.len) hi es

/-- R53, R92: the entry is the one of the instruction that the buffer holds at the record's offset. -/
def entryFaithful (s : State) (e : Entry) : Prop :=
  ∃ bs i, s.readBytes e.record.off e.record.len = some bs ∧ decode bs = .ok i [] ∧
    e = entryOf e.record.off i

/-- R114, R116: the error record has a cause that stands in the buffer at the cursor. -/
def errorJustified (s : State) (k : ErrKind) (b : Byte) : Prop :=
  match k with
  | .unknownOpcode => 2 ≤ s.remaining ∧ classify b = .unknown
  | .truncated => s.remaining = 1 ∨
      ∃ sel b1, classify b = .known sel ∧ s.bufRead (s.cursor + 1) = some b1 ∧
        s.remaining < instrLen sel b b1

/-- What each driver state says of the rest of the state (R27, R90, R119, R142). -/
def driverConsistent (s : State) : Prop :=
  match s.driver with
  | .start => s.err = none
  | .dispatch sel => s.err = none ∧ 2 ≤ s.remaining ∧
      ∃ b0, s.bufRead s.cursor = some b0 ∧ classify b0 = .known sel
  | .done => s.err = none ∧ s.cursor = s.mem.size
  | .error => ∃ k b, s.err = some ⟨k, s.cursor, b⟩ ∧ s.bufRead s.cursor = some b ∧ errorJustified s k b

/-- What holds of every state of a session. -/
structure State.Inv (s : State) : Prop where
  /-- the buffer is in canonical form -/
  memWf : s.mem.wf = true
  /-- R24: `C ≤ N` -/
  cursorLe : s.cursor ≤ s.mem.size
  /-- R83 -/
  tiled : tiles 0 s.cursor s.log
  /-- R53, R92 -/
  faithful : ∀ e ∈ s.log, entryFaithful s e
  /-- R27, R90, R119, R142 -/
  driverOk : driverConsistent s

/-! ## A reference decoder -/

/-- What one pass over some bytes yields: the entries and the error, if there is one. -/
structure Disassembly where
  entries : List Entry
  err : Option ErrorRecord
  deriving DecidableEq, Repr

/-- One forward pass over `bs`, whose first byte has offset `off` (R136): decode, append, go on behind
the instruction; stop at the end of the bytes or at the first error (R84 to R88). `fuel` bounds the number of
instructions. -/
def disassemble : Nat → Nat → List Byte → Disassembly
  | 0, _, _ => ⟨[], none⟩
  | fuel + 1, off, bs =>
    match decode bs with
    | .ok i rest =>
      let tail := disassemble fuel (off + i.len) rest
      ⟨entryOf off i :: tail.entries, tail.err⟩
    | .refused .noBytes => ⟨[], none⟩
    | .refused .truncated => ⟨[], some ⟨.truncated, off, bs.headD Memory.unlisted⟩⟩
    | .refused (.unknownOpcode b0) => ⟨[], some ⟨.unknownOpcode, off, b0⟩⟩

/-- The value the decimal digits of a text stand for (the reading of R21's `Dec`). -/
def decimalValue (digits : List Char) : Nat := digits.foldl (fun n c => 10 * n + (c.toNat - 48)) 0

end Sys2Proof.Machine
end

