-- ==== Sys2Proof/Certificates/Slice0/Obligations.lean ====
section
/-! DEFINITION. The statements for the provers. Each docstring names the rule of spec/ it formalises; a
statement that rests on a choice of the model names the log entry. -/

open Sys2Proof Sys2Proof.Machine

/-! ## Encoding -/

/-- R58 to R62: no bit of an encoding is dropped. Decoding an encoded well-formed instruction gives it
back, whatever bytes follow. -/
def Obligations.DecodeOfEncodedInstruction : Prop :=
  ∀ (i : Instr) (rest : List Byte), i.wf = true → decode (encode i ++ rest) = .ok i rest

/-- R58 to R62: each byte sequence has one meaning. What is decoded is well-formed (R61, R62: an 8-bit
value stays in 0 .. 255) and its encoding is the very bytes consumed. -/
def Obligations.EncodeOfDecodedBytes : Prop :=
  ∀ (bs rest : List Byte) (i : Instr), decode bs = .ok i rest → i.wf = true ∧ bs = encode i ++ rest

/-- R95, with `EncodeRR` as the rule writes it. -/
def Obligations.RegisterFormRoundTrip : Prop :=
  ∀ b0 b1 : Byte, classify b0 = .known .rm → (extract b0 b1).mod = 0b11#2 →
    encodeRR (extract b0 b1).d (extract b0 b1).w (extract b0 b1).reg (extract b0 b1).rm = [b0, b1]

/-- The six rows of the table (R66) are pairwise disjoint and together cover exactly the first bytes of
the two classes (R57); that they do is the spec's own inference, marked so at R66. -/
def Obligations.OpcodeRowsDisjointAndExact : Prop :=
  ∀ b0 b1 : Byte,
    ((∃ row ∈ opcodeTable, row.covers b0 b1 = true) ↔ classify b0 ≠ .unknown) ∧
    ∀ row ∈ opcodeTable, ∀ row' ∈ opcodeTable, row.covers b0 b1 = true → row'.covers b0 b1 = true →
      row = row'

/-- R64, R66: a decoded instruction is of the row its header bytes stand in, and as many bytes are
consumed as the row says. -/
def Obligations.DecodedInstructionIsOfItsRow : Prop :=
  ∀ (b0 b1 : Byte) (tl rest : List Byte) (i : Instr), decode (b0 :: b1 :: tl) = .ok i rest →
    ∃ row ∈ opcodeTable, row.covers b0 b1 = true ∧ row.mnemonic = i.mnemonic ∧ row.len = i.len ∧
      tl.length + 2 = row.len + rest.length

/-- R77. -/
def Obligations.ClassifierOfFirstByte : Prop :=
  ∀ b0 : Byte,
    (b0.extractLsb' 2 6 = 0b100010#6 → classify b0 = .known .rm) ∧
    (b0.extractLsb' 4 4 = 0b1011#4 → classify b0 = .known .imm) ∧
    (b0.extractLsb' 2 6 ≠ 0b100010#6 → b0.extractLsb' 4 4 ≠ 0b1011#4 → classify b0 = .unknown) ∧
    ¬ (b0.extractLsb' 2 6 = 0b100010#6 ∧ b0.extractLsb' 4 4 = 0b1011#4)

/-- R78. -/
def Obligations.LengthFunction : Prop :=
  ∀ b0 b1 : Byte,
    (b1.extractLsb' 6 2 = 0b00#2 → instrLen .rm b0 b1 = 2) ∧
    (b1.extractLsb' 6 2 = 0b01#2 → instrLen .rm b0 b1 = 3) ∧
    (b1.extractLsb' 6 2 = 0b10#2 → instrLen .rm b0 b1 = 4) ∧
    (b1.extractLsb' 6 2 = 0b11#2 → instrLen .rm b0 b1 = 2) ∧
    instrLen .imm b0 b1 = 2 + (b0.extractLsb' 3 1).toNat ∧
    ∀ b1' : Byte, instrLen .imm b0 b1' = instrLen .imm b0 b1

/-- R61: the displacement of each mod value. An 8-bit one is zero-extended, a 16-bit one is unsigned and
little-endian, neither is scaled, and mod 00 and 11 have none (for every rm, 110 included). -/
def Obligations.DisplacementAssembly : Prop :=
  ∀ (b0 b1 : Byte), classify b0 = .known .rm →
    let f := extract b0 b1
    (f.mod = 0b01#2 → ∀ (b2 : Byte) (rest : List Byte), ∃ disp : Half,
      decode (b0 :: b1 :: b2 :: rest) = .ok (.movM8 f.d f.w f.reg f.rm disp) rest ∧
      disp.toNat = b2.toNat) ∧
    (f.mod = 0b10#2 → ∀ (b2 b3 : Byte) (rest : List Byte), ∃ disp : Half,
      decode (b0 :: b1 :: b2 :: b3 :: rest) = .ok (.movM16 f.d f.w f.reg f.rm disp) rest ∧
      disp.toNat = b2.toNat + 256 * b3.toNat) ∧
    (f.mod = 0b00#2 → ∀ rest : List Byte,
      decode (b0 :: b1 :: rest) = .ok (.movM0 f.d f.w f.reg f.rm) rest) ∧
    (f.mod = 0b11#2 → ∀ rest : List Byte,
      decode (b0 :: b1 :: rest) = .ok (.movRR f.d f.w f.reg f.rm) rest)

/-- R62: the immediate of each width, unsigned, little-endian, never sign-extended or scaled. -/
def Obligations.ImmediateAssembly : Prop :=
  ∀ (b0 b1 : Byte), classify b0 = .known .imm →
    let g := extractImm b0
    (g.wi = 0#1 → ∀ rest : List Byte, ∃ imm : Half,
      decode (b0 :: b1 :: rest) = .ok (.movI8 g.regi imm) rest ∧ imm.toNat = b1.toNat) ∧
    (g.wi = 1#1 → ∀ (b2 : Byte) (rest : List Byte), ∃ imm : Half,
      decode (b0 :: b1 :: b2 :: rest) = .ok (.movI16 g.regi imm) rest ∧
      imm.toNat = b1.toNat + 256 * b2.toNat)

/-- Words of 95_test_vectors.md L1 and L2, one or more of each instruction, decode to the instruction they
stand for. -/
def Obligations.SpecWordsDecode : Prop :=
  decode [0x8A, 0x00] = .ok (.movM0 1 0 0 0) [] ∧
  decode [0x88, 0x6E, 0xFF] = .ok (.movM8 0 0 5 6 255) [] ∧
  decode [0x8B, 0x80, 0x34, 0x12] = .ok (.movM16 1 1 0 0 4660) [] ∧
  decode [0x89, 0xD9] = .ok (.movRR 0 1 3 1) [] ∧
  decode [0xB1, 0x80] = .ok (.movI8 1 128) [] ∧
  decode [0xBA, 0x6C, 0x0F] = .ok (.movI16 2 3948) []

/-- R114, R116, R123: the decoder refuses by name, in the order of R123: a lone byte before its class,
an unknown first byte before any length, and a known class exactly when its length exceeds the bytes. -/
def Obligations.DecoderRefusals : Prop :=
  (∀ b : Byte, decode [b] = .refused .truncated) ∧
  ∀ (b0 b1 : Byte) (tl : List Byte),
    (decode (b0 :: b1 :: tl) = .refused (.unknownOpcode b0) ↔ classify b0 = .unknown) ∧
    (decode (b0 :: b1 :: tl) = .refused .truncated ↔
      ∃ sel, classify b0 = .known sel ∧ tl.length + 2 < instrLen sel b0 b1)

/-! ## Transitions -/

/-- R84; C, O and E (and B) are unchanged. -/
def Obligations.StartWithNoBytesEndsInDone : Prop :=
  ∀ s : State, s.driver = .start → s.remaining = 0 → step s = .next { s with driver := .done }

/-- R85; C, O and E (and B) are unchanged. -/
def Obligations.StartDispatchesKnownOpcode : Prop :=
  ∀ (s : State) (b0 : Byte) (sel : Sel), s.driver = .start → 2 ≤ s.remaining →
    s.bufRead s.cursor = some b0 → classify b0 = .known sel →
    step s = .next { s with driver := .dispatch sel }

/-- R86: a lone byte is TRUNCATED whatever its value, and an unknown first byte of two or more is
UNKNOWN_OPCODE, each with the cursor and the byte at it (R118). -/
def Obligations.StartErrors : Prop :=
  ∀ s : State, s.driver = .start →
    (s.remaining = 1 → ∃ b, s.bufRead s.cursor = some b ∧
      step s = .next { s with err := some ⟨.truncated, s.cursor, b⟩, driver := .error }) ∧
    (2 ≤ s.remaining → ∀ b0, s.bufRead s.cursor = some b0 → classify b0 = .unknown →
      step s = .next { s with err := some ⟨.unknownOpcode, s.cursor, b0⟩, driver := .error })

/-- R87, with the record and line that the resolver of R93 owes the instruction at the cursor. The
premises that two bytes are there and that they are of the class are what R85 leaves (R142). -/
def Obligations.DispatchEmitsAndAdvances : Prop :=
  ∀ (s : State) (sel : Sel) (b0 b1 : Byte), s.driver = .dispatch sel →
    s.bufRead s.cursor = some b0 → s.bufRead (s.cursor + 1) = some b1 → classify b0 = .known sel →
    instrLen sel b0 b1 ≤ s.remaining →
    ∃ bs i, s.readBytes s.cursor (instrLen sel b0 b1) = some bs ∧ decode bs = .ok i [] ∧ i.sel = sel ∧
      (recordOf s.cursor i).len = instrLen sel b0 b1 ∧
      step s = .next { s with
        log := s.log ++ [⟨recordOf s.cursor i, render (recordOf s.cursor i)⟩]
        cursor := s.cursor + instrLen sel b0 b1
        driver := .start }

/-- R88: nothing is emitted and C is unchanged. The premises that two bytes are there and that they are
of the class are what R85 leaves (R142). -/
def Obligations.DispatchTruncated : Prop :=
  ∀ (s : State) (sel : Sel) (b0 b1 : Byte), s.driver = .dispatch sel →
    s.bufRead s.cursor = some b0 → s.bufRead (s.cursor + 1) = some b1 → classify b0 = .known sel →
    s.remaining < instrLen sel b0 b1 →
    step s = .next { s with err := some ⟨.truncated, s.cursor, b0⟩, driver := .error }

/-- R85, R87, R93: where the bytes at the cursor decode to an instruction, `Start` selects its class, and
the step from `Dispatch` of that class is the instruction's meaning, with nothing around it: the meaning
itself advances the cursor and loops back to `Start`. -/
def Obligations.StepRunsDecodedInstruction : Prop :=
  ∀ (s : State) (n : Nat) (bs rest : List Byte) (i : Instr),
    s.readBytes s.cursor n = some bs → decode bs = .ok i rest →
    (s.driver = .start → step s = .next { s with driver := .dispatch i.sel }) ∧
    (s.driver = .dispatch i.sel → step s = exec i s)

/-! ## What each instruction does -/

/-- R100, R101 (the record beside the line is the spec's decision D5, log entry 23). R ≥ 2 held at `Start`, so nothing can truncate it. -/
def Obligations.MovM0Emits : Prop :=
  ∀ (d w : BitVec 1) (reg rm : BitVec 3) (s : State), s.driver = .dispatch .rm → 2 ≤ s.remaining →
    exec (.movM0 d w reg rm) s = .next { s with
      log := s.log ++ [⟨.regMem ⟨s.cursor, 2, d, w, 0b00#2, reg, rm, none⟩,
        if d = 1#1 then "mov " ++ regName w reg ++ ", " ++ ("[" ++ eaText rm ++ "]")
        else "mov " ++ ("[" ++ eaText rm ++ "]") ++ ", " ++ regName w reg⟩]
      cursor := s.cursor + 2
      driver := .start }

/-- R100, R102. A zero displacement is still rendered; its decimal form is the spec's decision D9 (log
entry 9). -/
def Obligations.MovM8Emits : Prop :=
  ∀ (d w : BitVec 1) (reg rm : BitVec 3) (disp : Half) (s : State), s.driver = .dispatch .rm →
    3 ≤ s.remaining →
    exec (.movM8 d w reg rm disp) s = .next { s with
      log := s.log ++ [⟨.regMem ⟨s.cursor, 3, d, w, 0b01#2, reg, rm, some disp⟩,
        if d = 1#1 then "mov " ++ regName w reg ++ ", " ++ ("[" ++ eaText rm ++ " + " ++ dec disp ++ "]")
        else "mov " ++ ("[" ++ eaText rm ++ " + " ++ dec disp ++ "]") ++ ", " ++ regName w reg⟩]
      cursor := s.cursor + 3
      driver := .start }

/-- R100, R103. The displacement's decimal form is the spec's decision D9 (log entry 9). -/
def Obligations.MovM16Emits : Prop :=
  ∀ (d w : BitVec 1) (reg rm : BitVec 3) (disp : Half) (s : State), s.driver = .dispatch .rm →
    4 ≤ s.remaining →
    exec (.movM16 d w reg rm disp) s = .next { s with
      log := s.log ++ [⟨.regMem ⟨s.cursor, 4, d, w, 0b10#2, reg, rm, some disp⟩,
        if d = 1#1 then "mov " ++ regName w reg ++ ", " ++ ("[" ++ eaText rm ++ " + " ++ dec disp ++ "]")
        else "mov " ++ ("[" ++ eaText rm ++ " + " ++ dec disp ++ "]") ++ ", " ++ regName w reg⟩]
      cursor := s.cursor + 4
      driver := .start }

/-- R100, R104. Both operands are read with the same w. -/
def Obligations.MovRREmits : Prop :=
  ∀ (d w : BitVec 1) (reg rm : BitVec 3) (s : State), s.driver = .dispatch .rm → 2 ≤ s.remaining →
    exec (.movRR d w reg rm) s = .next { s with
      log := s.log ++ [⟨.regMem ⟨s.cursor, 2, d, w, 0b11#2, reg, rm, none⟩,
        if d = 1#1 then "mov " ++ regName w reg ++ ", " ++ regName w rm
        else "mov " ++ regName w rm ++ ", " ++ regName w reg⟩]
      cursor := s.cursor + 2
      driver := .start }

/-- R110, R111. -/
def Obligations.MovI8Emits : Prop :=
  ∀ (reg : BitVec 3) (imm : Half) (s : State), s.driver = .dispatch .imm → 2 ≤ s.remaining →
    exec (.movI8 reg imm) s = .next { s with
      log := s.log ++ [⟨.immReg ⟨s.cursor, 2, 0#1, reg, imm⟩,
        "mov " ++ regName 0#1 reg ++ ", " ++ dec imm⟩]
      cursor := s.cursor + 2
      driver := .start }

/-- R110, R112. -/
def Obligations.MovI16Emits : Prop :=
  ∀ (reg : BitVec 3) (imm : Half) (s : State), s.driver = .dispatch .imm → 3 ≤ s.remaining →
    exec (.movI16 reg imm) s = .next { s with
      log := s.log ++ [⟨.immReg ⟨s.cursor, 3, 1#1, reg, imm⟩,
        "mov " ++ regName 1#1 reg ++ ", " ++ dec imm⟩]
      cursor := s.cursor + 3
      driver := .start }

/-- The MODEL'S CHOICE, log entry 18: the length test stands again in every meaning, so that exec of an
instruction that does not fit raises TRUNCATED by itself (by the entry of R118) and has none of its effect.
The spec has no exception inside a resolver (R100, R110): it raises TRUNCATED in `Dispatch` before the
resolver is called, which is the statement DispatchTruncated. The case R = 1 is the model's own too: no
session reaches it in `Dispatch`, the spec says there that the three rows of length 2 cannot be truncated,
and a step from such a state faults readPastEnd. -/
def Obligations.ExecTruncatesWhereItDoesNotFit : Prop :=
  ∀ (i : Instr) (s : State) (b0 : Byte), s.driver = .dispatch i.sel → s.bufRead s.cursor = some b0 →
    s.remaining < i.len →
    exec i s = .next { s with err := some ⟨.truncated, s.cursor, b0⟩, driver := .error }

/-- The spec's own inference R115: with the two bytes that `Start` guarantees, a step from `Dispatch` that
ends in `Error` did so for a class-RM header of mod 01 (MOV.M8) with R = 2, one of mod 10 (MOV.M16) with R = 2
or 3, or a class-IMM header of w = 1 (MOV.I16) with R = 2, and recorded (TRUNCATED, C, b0). The second half
says the same of exec's own length test, which is the model's choice and which no step meets (log entry 18). -/
def Obligations.OnlyLongRowsTruncate : Prop :=
  (∀ (s t : State) (sel : Sel) (b0 b1 : Byte), s.driver = .dispatch sel → 2 ≤ s.remaining →
    s.bufRead s.cursor = some b0 → s.bufRead (s.cursor + 1) = some b1 → step s = .next t →
    t.driver = .error →
    classify b0 = .known sel ∧
    t = { s with err := some ⟨.truncated, s.cursor, b0⟩, driver := .error } ∧
    ((sel = .rm ∧ b1.extractLsb' 6 2 = 0b01#2 ∧ s.remaining = 2) ∨
     (sel = .rm ∧ b1.extractLsb' 6 2 = 0b10#2 ∧ (s.remaining = 2 ∨ s.remaining = 3)) ∨
     (sel = .imm ∧ b0.extractLsb' 3 1 = 1#1 ∧ s.remaining = 2))) ∧
  ∀ (i : Instr) (s t : State), 2 ≤ s.remaining → exec i s = .next t → t.driver = .error →
    (i.mnemonic = "MOV.M8" ∧ s.remaining = 2) ∨
    (i.mnemonic = "MOV.M16" ∧ (s.remaining = 2 ∨ s.remaining = 3)) ∨
    (i.mnemonic = "MOV.I16" ∧ s.remaining = 2)

/-- The frame of all six instructions (R42, R82, R87, R88, R118). No byte of the buffer changes. Either
the instruction's one entry is appended, the cursor moves by its length and the error record stays; or
TRUNCATED is entered, the cursor and the log stay and the record names the cursor and the byte at it (that
a meaning itself raises it is the model's choice, log entry 18). -/
def Obligations.ExecFrame : Prop :=
  ∀ (i : Instr) (s t : State), exec i s = .next t →
    t.mem.size = s.mem.size ∧ (∀ a, t.bufRead a = s.bufRead a) ∧
    ((s.cursor + i.len ≤ s.mem.size ∧ t.driver = .start ∧ t.cursor = s.cursor + i.len ∧
        t.err = s.err ∧ t.log = s.log ++ [entryOf s.cursor i]) ∨
     (s.mem.size < s.cursor + i.len ∧ t.driver = .error ∧ t.cursor = s.cursor ∧ t.log = s.log ∧
        ∃ b, s.bufRead s.cursor = some b ∧ t.err = some ⟨.truncated, s.cursor, b⟩))

/-! ## What every step keeps -/

/-- R53, R56: no step writes the buffer, and in a session every read returns the byte the host loaded. -/
def Obligations.BufferIsNeverWritten : Prop :=
  (∀ s t : State, step s = .next t → t.mem = s.mem) ∧
  ∀ (bs : List Byte) (k : Nat) (t : State), steps k (State.session bs) = some t →
    ∀ a, t.bufRead a = bs[a]?

/-- R26, R54: the log is append-only; a step appends at most one entry, and only the `Dispatch` success
transition appends. -/
def Obligations.LogIsAppendOnly : Prop :=
  ∀ s t : State, step s = .next t →
    t.log = s.log ∨
    ∃ sel e, s.driver = .dispatch sel ∧ t.driver = .start ∧ t.log = s.log ++ [e] ∧
      e.record.off = s.cursor ∧ e.line = render e.record

/-- R82: the cursor is written in the `Dispatch` success transition only, by the instruction's length, and
only when that is at most R; afterwards C ≤ N still holds, and in a register of a width that R15 admits the
addition does not wrap. -/
def Obligations.CursorAdvance : Prop :=
  ∀ s t : State, step s = .next t →
    t.cursor = s.cursor ∨
    ∃ sel b0 b1, s.driver = .dispatch sel ∧ t.driver = .start ∧ s.bufRead s.cursor = some b0 ∧
      s.bufRead (s.cursor + 1) = some b1 ∧ instrLen sel b0 b1 ≤ s.remaining ∧
      t.cursor = s.cursor + instrLen sel b0 b1 ∧ t.cursor ≤ t.mem.size ∧
      ∀ c : Config, c.admits s.mem.size →
        (BitVec.ofNat c.cursorWidth s.cursor + BitVec.ofNat c.cursorWidth (instrLen sel b0 b1)).toNat =
          t.cursor

/-- R114, R116, R118: the only way into `Error`; C, O (and B) are unchanged, the record names C and B[C],
and its kind has its cause in the buffer at the cursor. -/
def Obligations.ErrorEntry : Prop :=
  ∀ s t : State, step s = .next t → t.driver = .error →
    ∃ k b, s.bufRead s.cursor = some b ∧ errorJustified s k b ∧ s.driver ≠ .done ∧ s.driver ≠ .error ∧
      t = { s with err := some ⟨k, s.cursor, b⟩, driver := .error }

/-- R89, R120: the terminal states have no outgoing transition. -/
def Obligations.TerminalStatesAreFinal : Prop :=
  ∀ s t : State, s.driver = .done ∨ s.driver = .error → step s ≠ .next t

/-- R144, and the spec's own inference R94: in a state of a session some transition is enabled exactly outside the terminal states;
the block is never stuck in `Start` or `Dispatch`, and no step reads past the end (R42). -/
def Obligations.ProgressOutsideTerminalStates : Prop :=
  ∀ s : State, s.Inv → ((∃ t, step s = .next t) ↔ s.driver ≠ .done ∧ s.driver ≠ .error)

/-- The spec's own inferences R29 and R142: a step into `Dispatch` leaves the bytes it classified at the cursor. -/
def Obligations.DispatchFollowsStart : Prop :=
  ∀ (s t : State) (sel : Sel), step s = .next t → t.driver = .dispatch sel →
    s.driver = .start ∧ t.cursor = s.cursor ∧ 2 ≤ t.remaining ∧
      ∃ b0, t.bufRead t.cursor = some b0 ∧ classify b0 = .known sel

/-- R43: no step depends on what the log holds. -/
def Obligations.LogNeverReadBack : Prop :=
  ∀ (s t : State) (l : List Entry), step s = .next t →
    step { s with log := l ++ s.log } = .next { t with log := l ++ t.log }

/-- R49: a step depends on the four bytes at the cursor and the buffer's length, and on no other byte. -/
def Obligations.StepReadsOnlyTheInstruction : Prop :=
  ∀ (s t : State) (m : Memory), m.size = s.mem.size →
    (∀ a, s.cursor ≤ a → a < s.cursor + 4 → m.read a = s.mem.read a) →
    step s = .next t → step { s with mem := m } = .next { t with mem := m }

/-! ## The session invariant -/

/-- The invariant at reset. -/
def Obligations.ResetMeetsInv : Prop := State.reset.Inv

/-- The invariant where a session over any buffer begins (R40, R137). -/
def Obligations.SessionBeginsInInv : Prop := ∀ bs : List Byte, (State.session bs).Inv

/-- R24 and R27, and the spec's own inferences R83, R90, R119 and R142: every step keeps the session invariant. -/
def Obligations.StepKeepsInv : Prop := ∀ s t : State, s.Inv → step s = .next t → t.Inv

/-! ## Whole sessions -/

/-- The spec's own inference R91: every session reaches `Done` or `Error`, with these counts of transitions; the last transition
is the one from `s` to `t`. -/
def Obligations.SessionTerminates : Prop :=
  ∀ bs : List Byte, ∃ (k : Nat) (s t : State),
    steps k (State.session bs) = some s ∧ step s = .next t ∧ t.terminal = true ∧
    k + 1 ≤ bs.length + 1 ∧
    (t.driver = .done → k + 1 = 2 * t.log.length + 1 ∧ 2 * t.log.length ≤ bs.length) ∧
    (t.driver = .error → s.driver = .start → k + 1 = 2 * t.log.length + 1) ∧
    (t.driver = .error → s.driver ≠ .start → k + 1 = 2 * t.log.length + 2)

/-- R90, R121 (from offset 0, the spec's decision D3, log entry 15): a session over any buffer ends as one forward pass of the decoder over the bytes
says: the same entries, the same error, and the result the host collects. -/
def Obligations.SessionRefinesDisassembly : Prop :=
  ∀ bs : List Byte, ∃ (k : Nat) (t : State),
    steps k (State.session bs) = some t ∧ t.terminal = true ∧
    t.log = (disassemble (bs.length + 1) 0 bs).entries ∧
    t.err = (disassemble (bs.length + 1) 0 bs).err ∧
    t.result = some (match (disassemble (bs.length + 1) 0 bs).err with
      | none => .success ((disassemble (bs.length + 1) 0 bs).entries.map Entry.line)
      | some e => .failure e)

/-- The spec's own inferences R83 and R90: at `Done` the decoded instructions tile the buffer exactly, one line each, in order. -/
def Obligations.SuccessTilesTheBuffer : Prop :=
  ∀ (bs : List Byte) (k : Nat) (t : State), steps k (State.session bs) = some t → t.driver = .done →
    ∃ is : List Instr, (∀ i ∈ is, i.wf = true) ∧ bs = is.flatMap encode ∧
      t.log = entriesFrom 0 is ∧ t.cursor = bs.length ∧ t.err = none ∧
      t.result = some (.success ((entriesFrom 0 is).map Entry.line))

/-- R87, R90: a buffer that holds encoded instructions one behind the other is decoded whole, in two
transitions an instruction and one more. -/
def Obligations.EncodedBufferDecodesWhole : Prop :=
  ∀ is : List Instr, (∀ i ∈ is, i.wf = true) →
    ∃ t, steps (2 * is.length + 1) (State.session (is.flatMap encode)) = some t ∧ t.driver = .done ∧
      t.log = entriesFrom 0 is ∧ t.cursor = (is.flatMap encode).length ∧ t.err = none

/-- The spec's own inference R119, and R121: an error is precise. Every instruction that starts before `E.offset` has been emitted, in
order, and nothing else; `C = E.offset`; the byte is the buffer's; the result is the error and the partial
log is kept. -/
def Obligations.ErrorIsPrecise : Prop :=
  ∀ (bs : List Byte) (k : Nat) (t : State), steps k (State.session bs) = some t → t.driver = .error →
    ∃ (e : ErrorRecord) (is : List Instr), t.err = some e ∧ t.cursor = e.offset ∧
      e.offset < bs.length ∧ bs[e.offset]? = some e.byte ∧
      bs.take e.offset = is.flatMap encode ∧ t.log = entriesFrom 0 is ∧ t.result = some (.failure e)

/-- R96: the range and consumption laws of every decoded record, and the one-byte buffer. -/
def Obligations.RecordRangeAndConsumption : Prop :=
  (∀ (bs : List Byte) (k : Nat) (t : State), steps k (State.session bs) = some t → ∀ e ∈ t.log,
    match e.record with
    | .immReg r =>
      (r.w = 0#1 → r.imm.toNat ≤ 255 ∧ ∃ b1, bs[r.off + 1]? = some b1 ∧
        decimalValue (dec r.imm).toList = b1.toNat) ∧
      (r.w = 1#1 → r.imm.toNat ≤ 65535 ∧ ∃ b1 b2, bs[r.off + 1]? = some b1 ∧ bs[r.off + 2]? = some b2 ∧
        decimalValue (dec r.imm).toList = b1.toNat + 256 * b2.toNat)
    | .regMem r =>
      (r.mod = 0b00#2 → r.len = 2) ∧ (r.mod = 0b01#2 → r.len = 2 + 1) ∧ (r.mod = 0b10#2 → r.len = 2 + 2)) ∧
  ∀ b : Byte, ∃ t, steps 1 (State.session [b]) = some t ∧ t.driver = .error ∧ t.log = [] ∧
    t.err = some ⟨.truncated, 0, b⟩

/-! ## The buffer, STATUS, the ROMs and the text -/

/-- R41, R42, R137: a loaded buffer reads, at every offset, as the bytes the host supplied, and at no
other. -/
def Obligations.LoadedBufferReads : Prop :=
  ∀ (bs : List Byte) (a : Nat), (Memory.load bs).read a = bs[a]?

/-- Two buffers in canonical form that have one length and read alike are equal data (log entry 3). -/
def Obligations.CanonicalBuffersAreEqualData : Prop :=
  ∀ m m' : Memory, m.wf = true → m'.wf = true → m.size = m'.size → (∀ a, m.read a = m'.read a) → m = m'

/-- R40, R134: what reset leaves, whatever session it discards; the buffer is the host's and stays. C = 0 is
the spec's decision D3 and STATUS its decision D13 (log entries 10 and 15). -/
def Obligations.ResetBeginsASession : Prop :=
  ∀ (s : State) (c : Config),
    s.restart.cursor = 0 ∧ s.restart.driver = .start ∧ s.restart.log = [] ∧ s.restart.err = none ∧
    (∀ a, s.restart.bufRead a = s.bufRead a) ∧ s.restart.mem.size = s.mem.size ∧
    status c s.restart = ⟨0#2, 0#1, 0#2, 0#8, BitVec.ofNat _ 0, BitVec.ofNat _ 0⟩

/-- R15, R35, R113: in a build whose cursor register is wide enough, every field of STATUS is the state's. The
numbers are the spec's own decisions: D6 for err_kind (1 = TRUNCATED, 2 = UNKNOWN_OPCODE; log entry 24) and
D13 for the rest (log entry 10). -/
def Obligations.StatusShowsTheState : Prop :=
  ∀ (c : Config) (s : State), s.Inv → c.admits s.mem.size →
    (status c s).cursor.toNat = s.cursor ∧
    ((status c s).state = 0#2 ↔ s.driver = .start) ∧
    ((status c s).state = 1#2 ↔ ∃ sel, s.driver = .dispatch sel) ∧
    ((status c s).state = 2#2 ↔ s.driver = .done) ∧
    ((status c s).state = 3#2 ↔ s.driver = .error) ∧
    ((status c s).sel = 1#1 ↔ s.driver = .dispatch .imm) ∧
    (status c s).errKind ≠ 3#2 ∧
    (s.driver ≠ .error → (status c s).errKind = 0#2 ∧ (status c s).errByte = 0#8 ∧
      (status c s).errOffset.toNat = 0) ∧
    (s.driver = .error → ∃ e, s.err = some e ∧ (status c s).errKind = e.kind.code ∧
      ((status c s).errKind = 1#2 ↔ e.kind = .truncated) ∧
      ((status c s).errKind = 2#2 ↔ e.kind = .unknownOpcode) ∧
      (status c s).errByte = e.byte ∧ (status c s).errOffset.toNat = e.offset)

/-- R72, R73: the contents of the two ROMs. Ten register entries and five addressing entries are the
spec's decisions D10 and D11 (log entry 8). -/
def Obligations.RomContents : Prop :=
  (List.ofFn fun id : Fin 8 => regName 0#1 (BitVec.ofFin id)) =
      ["al", "cl", "dl", "bl", "ah", "ch", "dh", "bh"] ∧
  (List.ofFn fun id : Fin 8 => regName 1#1 (BitVec.ofFin id)) =
      ["ax", "cx", "dx", "bx", "sp", "bp", "si", "di"] ∧
  (List.ofFn fun rm : Fin 8 => eaText (BitVec.ofFin rm)) =
      ["bx + si", "bx + di", "bp + si", "bp + di", "si", "di", "bp", "bx"]

/-- R21 `Dec`: only digits, the exact unsigned value, no leading zero, and "0" for zero (the form is the
spec's decision D9, log entry 9). -/
def Obligations.DecimalIsExact : Prop :=
  ∀ v : Half,
    (∀ ch ∈ (dec v).toList, 48 ≤ ch.toNat ∧ ch.toNat ≤ 57) ∧
    decimalValue (dec v).toList = v.toNat ∧
    ((dec v).toList.head? = some '0' → dec v = "0") ∧ (v = 0#16 → dec v = "0")

/-- R104: swapping the two register ids and the direction bit gives another encoding of the same line;
Render is not injective (R92). -/
def Obligations.TwoEncodingsOneRegisterLine : Prop :=
  ∀ (off : Nat) (w : BitVec 1) (a b : BitVec 3),
    render (recordOf off (.movRR 0#1 w a b)) = render (recordOf off (.movRR 1#1 w b a)) ∧
    encode (.movRR 0#1 w a b) ≠ encode (.movRR 1#1 w b a)
end

