-- ==== Sys2Proof/Laws/Decode.lean ====
section
/-! SUPPORT. What the decoder and the encoder can do, said once. -/

namespace Sys2Proof

/-- R79: every length is 2, 3 or 4. -/
theorem Instr.len_bounds (i : Instr) : 2 ≤ i.len ∧ i.len ≤ 4 := by
  cases i <;> simp [Instr.len]

/-- What format RM's decoder can answer: the instruction's class, and how many trailing bytes it took. -/
theorem decodeRM_ok {b0 b1 : Byte} {bs rest : List Byte} {i : Instr}
    (h : decodeRM (extract b0 b1) bs = .ok i rest) :
    i.sel = .rm ∧ i.len = instrLen .rm b0 b1 ∧ i.len + rest.length = 2 + bs.length ∧
      bs = bs.take (i.len - 2) ++ rest := by
  unfold decodeRM at h
  split at h
  · next h0 => cases h; simp [Instr.sel, Instr.len, instrLen, h0]
  · split at h
    · next h1 =>
      split at h
      · cases h; simp [Instr.sel, Instr.len, instrLen, h1]; omega
      · cases h
    · next h0 h1 =>
      split at h
      · next h2 =>
        split at h
        · cases h; simp [Instr.sel, Instr.len, instrLen, h2]; omega
        · cases h
      · next h2 => cases h; simp [Instr.sel, Instr.len, instrLen, h1, h2]

/-- What format IMM's decoder can answer. -/
theorem decodeIMM_ok {b0 b1 : Byte} {bs rest : List Byte} {i : Instr}
    (h : decodeIMM (extractImm b0) b1 bs = .ok i rest) :
    i.sel = .imm ∧ i.len = instrLen .imm b0 b1 ∧ i.len + rest.length = 2 + bs.length ∧
      bs = bs.take (i.len - 2) ++ rest := by
  unfold decodeIMM at h
  split at h
  · next h1 =>
    split at h
    · cases h; simp [Instr.sel, Instr.len, instrLen, h1]; omega
    · cases h
  · next h1 =>
    cases h
    have : (extractImm b0).wi = 0#1 := by
      have := BitVec.eq_zero_or_eq_one (extractImm b0).wi
      tauto
    simp [Instr.sel, Instr.len, instrLen, this]

/-- What the decoder can answer with an instruction: its class is its first byte's, its length is R78's,
and exactly that many bytes are consumed. -/
theorem decode_ok {bs rest : List Byte} {i : Instr} (h : decode bs = .ok i rest) :
    ∃ b0 b1 tl, bs = b0 :: b1 :: tl ∧ classify b0 = .known i.sel ∧ i.len = instrLen i.sel b0 b1 ∧
      i.len + rest.length = bs.length ∧ bs = bs.take i.len ++ rest := by
  unfold decode at h
  split at h
  · cases h
  · cases h
  · next b0 b1 tl =>
    refine ⟨b0, b1, tl, rfl, ?_⟩
    split at h
    · cases h
    · next hc =>
      obtain ⟨hsel, hlen, hl, hbs⟩ := decodeRM_ok h
      have := i.len_bounds
      obtain ⟨n, hn⟩ : ∃ n, i.len = n + 2 := ⟨i.len - 2, by omega⟩
      rw [hn, Nat.add_sub_cancel] at hbs
      refine ⟨by rw [hsel, hc], by rw [hsel, hlen], by simp; omega, ?_⟩
      rw [hn]
      simpa using hbs
    · next hc =>
      obtain ⟨hsel, hlen, hl, hbs⟩ := decodeIMM_ok h
      have := i.len_bounds
      obtain ⟨n, hn⟩ : ∃ n, i.len = n + 2 := ⟨i.len - 2, by omega⟩
      rw [hn, Nat.add_sub_cancel] at hbs
      refine ⟨by rw [hsel, hc], by rw [hsel, hlen], by simp; omega, ?_⟩
      rw [hn]
      simpa using hbs

/-- A known class and enough bytes give an instruction. -/
theorem decode_of_fits {b0 b1 : Byte} {tl : List Byte} {sel : Sel} (hc : classify b0 = .known sel)
    (hl : instrLen sel b0 b1 ≤ tl.length + 2) : ∃ i rest, decode (b0 :: b1 :: tl) = .ok i rest := by
  cases sel with
  | rm =>
    simp only [decode, hc, decodeRM]
    simp only [instrLen] at hl
    split
    · exact ⟨_, _, rfl⟩
    · split
      · next h1 =>
        cases tl with
        | nil => simp [h1] at hl
        | cons b2 tl => exact ⟨_, _, rfl⟩
      · next h1 =>
        split
        · next h2 =>
          match tl, hl with
          | [], hl => simp [h2] at hl
          | [_], hl => simp [h2] at hl
          | b2 :: b3 :: tl, _ => exact ⟨_, _, rfl⟩
        · exact ⟨_, _, rfl⟩
  | imm =>
    simp only [decode, hc, decodeIMM]
    simp only [instrLen] at hl
    split
    · next h1 =>
      cases tl with
      | nil => simp [h1] at hl
      | cons b2 tl => exact ⟨_, _, rfl⟩
    · exact ⟨_, _, rfl⟩

/-- Bytes behind the instruction change nothing but the rest. -/
theorem decode_append {bs rest : List Byte} {i : Instr} (h : decode bs = .ok i rest) (more : List Byte) :
    decode (bs ++ more) = .ok i (rest ++ more) := by
  unfold decode at h
  split at h
  · cases h
  · cases h
  · next b0 b1 tl =>
    simp only [List.cons_append, decode]
    split at h
    · cases h
    · next hc =>
      unfold decodeRM at h ⊢
      grind
    · next hc =>
      unfold decodeIMM at h ⊢
      grind

end Sys2Proof

namespace Sys2Proof.Machine

/-- The record of an instruction has the instruction's length (R93). -/
@[simp] theorem recordOf_len (off : Nat) (i : Instr) : (recordOf off i).len = i.len := by cases i <;> rfl

/-- The record of an instruction has the offset it was resolved at (R92). -/
@[simp] theorem recordOf_off (off : Nat) (i : Instr) : (recordOf off i).off = off := by cases i <;> rfl

/-- The record of an instruction is the resolver's of its class (R93). -/
@[simp] theorem recordOf_sel (off : Nat) (i : Instr) : (recordOf off i).sel = i.sel := by cases i <;> rfl

end Sys2Proof.Machine
end

