-- ==== Sys2Proof/Laws/State.lean ====
section
/-! SUPPORT. One lemma per field per update of State, so that no later proof unfolds a record update. -/

namespace Sys2Proof.Machine

variable (s : State)

@[simp] theorem State.setDriver_mem (d : Driver) : (s.setDriver d).mem = s.mem := rfl
@[simp] theorem State.setDriver_cursor (d : Driver) : (s.setDriver d).cursor = s.cursor := rfl
@[simp] theorem State.setDriver_driver (d : Driver) : (s.setDriver d).driver = d := rfl
@[simp] theorem State.setDriver_log (d : Driver) : (s.setDriver d).log = s.log := rfl
@[simp] theorem State.setDriver_err (d : Driver) : (s.setDriver d).err = s.err := rfl

@[simp] theorem State.advance_mem (n : Nat) : (s.advance n).mem = s.mem := rfl
@[simp] theorem State.advance_cursor (n : Nat) : (s.advance n).cursor = s.cursor + n := rfl
@[simp] theorem State.advance_driver (n : Nat) : (s.advance n).driver = s.driver := rfl
@[simp] theorem State.advance_log (n : Nat) : (s.advance n).log = s.log := rfl
@[simp] theorem State.advance_err (n : Nat) : (s.advance n).err = s.err := rfl

@[simp] theorem State.emit_mem (r : DecodedRecord) : (s.emit r).mem = s.mem := rfl
@[simp] theorem State.emit_cursor (r : DecodedRecord) : (s.emit r).cursor = s.cursor := rfl
@[simp] theorem State.emit_driver (r : DecodedRecord) : (s.emit r).driver = s.driver := rfl
@[simp] theorem State.emit_log (r : DecodedRecord) : (s.emit r).log = s.log ++ [⟨r, render r⟩] := rfl
@[simp] theorem State.emit_err (r : DecodedRecord) : (s.emit r).err = s.err := rfl

@[simp] theorem State.setErr_mem (e : ErrorRecord) : (s.setErr e).mem = s.mem := rfl
@[simp] theorem State.setErr_cursor (e : ErrorRecord) : (s.setErr e).cursor = s.cursor := rfl
@[simp] theorem State.setErr_driver (e : ErrorRecord) : (s.setErr e).driver = s.driver := rfl
@[simp] theorem State.setErr_log (e : ErrorRecord) : (s.setErr e).log = s.log := rfl
@[simp] theorem State.setErr_err (e : ErrorRecord) : (s.setErr e).err = some e := rfl

@[simp] theorem State.session_mem (bs : List Byte) : (State.session bs).mem = Memory.load bs := rfl
@[simp] theorem State.session_cursor (bs : List Byte) : (State.session bs).cursor = 0 := rfl
@[simp] theorem State.session_driver (bs : List Byte) : (State.session bs).driver = .start := rfl
@[simp] theorem State.session_log (bs : List Byte) : (State.session bs).log = [] := rfl
@[simp] theorem State.session_err (bs : List Byte) : (State.session bs).err = none := rfl

@[simp] theorem State.restart_mem : s.restart.mem = s.mem := rfl
@[simp] theorem State.restart_cursor : s.restart.cursor = 0 := rfl
@[simp] theorem State.restart_driver : s.restart.driver = .start := rfl
@[simp] theorem State.restart_log : s.restart.log = [] := rfl
@[simp] theorem State.restart_err : s.restart.err = none := rfl

@[simp] theorem State.placeInstr_mem (bs : List Byte) :
    (s.placeInstr bs).mem = s.mem.putBytes s.cursor bs := rfl
@[simp] theorem State.placeInstr_cursor (bs : List Byte) : (s.placeInstr bs).cursor = s.cursor := rfl
@[simp] theorem State.placeInstr_driver (bs : List Byte) :
    (s.placeInstr bs).driver = driverFor (bs.headD Memory.unlisted) := rfl
@[simp] theorem State.placeInstr_log (bs : List Byte) : (s.placeInstr bs).log = s.log := rfl
@[simp] theorem State.placeInstr_err (bs : List Byte) : (s.placeInstr bs).err = s.err := rfl

/-- R81: an instruction fits when its length is at most the remaining count. -/
@[simp] theorem State.fits_iff (n : Nat) : s.fits n = true ↔ n ≤ s.remaining := by
  simp [State.fits]

/-- What a read gives depends on the buffer alone. -/
theorem State.bufRead_eq_of_mem {s t : State} (h : t.mem = s.mem) (off : Nat) :
    t.bufRead off = s.bufRead off := by
  simp [State.bufRead, h]

/-- What a read of several bytes gives depends on the buffer alone. -/
theorem State.readBytes_eq_of_mem {s t : State} (h : t.mem = s.mem) (off n : Nat) :
    t.readBytes off n = s.readBytes off n := by
  induction n generalizing off with
  | zero => rfl
  | succ n ih => simp [State.readBytes, ih, State.bufRead_eq_of_mem h]

/-- A read answers exactly below `N` (R42). -/
theorem State.bufRead_isSome (off : Nat) : (s.bufRead off).isSome = decide (off < s.mem.size) := by
  by_cases h : off < s.mem.size <;> simp [State.bufRead, Memory.read, h]

/-- A read that answers is below `N` (R42). -/
theorem State.lt_size_of_bufRead {s : State} {off : Nat} {b : Byte} (h : s.bufRead off = some b) :
    off < s.mem.size := by
  simpa [h] using s.bufRead_isSome off

/-- Below `N` a read answers (R42). -/
theorem State.bufRead_of_lt {s : State} {off : Nat} (h : off < s.mem.size) :
    ∃ b, s.bufRead off = some b := by
  simp [State.bufRead, Memory.read, h]

/-- Several reads answer when the last of them is below `N`. -/
theorem State.readBytes_of_le {s : State} {off n : Nat} (h : off + n ≤ s.mem.size) :
    ∃ bs, s.readBytes off n = some bs ∧ bs.length = n := by
  induction n generalizing off with
  | zero => exact ⟨[], rfl, rfl⟩
  | succ n ih =>
    obtain ⟨b, hb⟩ := State.bufRead_of_lt (s := s) (off := off) (by omega)
    obtain ⟨bs, hbs, hlen⟩ := ih (off := off + 1) (by omega)
    exact ⟨b :: bs, by simp [State.readBytes, hb, hbs], by simp [hlen]⟩

/-- Several reads that answer end at or below `N` and give as many bytes as were asked for. -/
theorem State.le_size_of_readBytes {s : State} {off n : Nat} {bs : List Byte}
    (h : s.readBytes off n = some bs) : bs.length = n ∧ (n ≠ 0 → off + n ≤ s.mem.size) := by
  induction n generalizing off bs with
  | zero =>
    simp [State.readBytes] at h
    simp [← h]
  | succ n ih =>
    simp only [State.readBytes] at h
    split at h
    · next b bs' hb hbs =>
      obtain ⟨hlen, hle⟩ := ih hbs
      cases h
      have := State.lt_size_of_bufRead hb
      refine ⟨by simp [hlen], fun _ => ?_⟩
      by_cases hn : n = 0
      · omega
      · have := hle hn
        omega
    · exact absurd h (by simp)

end Sys2Proof.Machine
end

