-- ==== Sys2Proof/Laws/Memory.lean ====
section
/-! SUPPORT. The laws of the Byte Buffer: a byte put is the byte read, every other byte stays, and every
operation keeps the canonical form. -/

namespace Sys2Proof.Machine

/-- Raising the bounds keeps cells canonical. -/
theorem cellsWf_mono {lo lo' hi hi' : Nat} (hlo : lo' ≤ lo) (hhi : hi ≤ hi') :
    ∀ cells, cellsWf lo hi cells = true → cellsWf lo' hi' cells = true := by
  intro cells
  induction cells generalizing lo lo' with
  | nil => simp [cellsWf]
  | cons c rest ih =>
    simp only [cellsWf, Bool.and_eq_true, decide_eq_true_eq]
    rintro ⟨⟨⟨h1, h2⟩, h3⟩, h4⟩
    exact ⟨⟨⟨by omega, by omega⟩, h3⟩, ih (Nat.le_refl _) h4⟩

/-- Setting a byte keeps cells canonical. -/
theorem insertCell_wf {lo hi a : Nat} {b : Byte} (hlo : lo ≤ a) (hhi : a < hi) :
    ∀ cells, cellsWf lo hi cells = true → cellsWf lo hi (insertCell a b cells) = true := by
  intro cells
  induction cells generalizing lo with
  | nil => intro _; by_cases hb : b = Memory.unlisted <;> simp [insertCell, cellsWf, hb, hlo, hhi]
  | cons c rest ih =>
    obtain ⟨a', b'⟩ := c
    intro h
    have hall := h
    simp only [cellsWf, Bool.and_eq_true, decide_eq_true_eq] at h
    obtain ⟨⟨⟨h1, h2⟩, h3⟩, h4⟩ := h
    simp only [insertCell]
    by_cases hlt : a < a'
    · by_cases hb : b = Memory.unlisted
      · simpa [hlt, hb] using hall
      · simp only [hlt, hb, if_true, if_false, cellsWf, Bool.and_eq_true, decide_eq_true_eq]
        exact ⟨⟨⟨hlo, hhi⟩, hb⟩, ⟨⟨by omega, h2⟩, h3⟩, h4⟩
    · by_cases heq : a = a'
      · subst heq
        by_cases hb : b = Memory.unlisted
        · simpa [hb] using cellsWf_mono (by omega) (Nat.le_refl _) _ h4
        · simp only [Nat.lt_irrefl, hb, if_true, if_false, cellsWf, Bool.and_eq_true, decide_eq_true_eq]
          exact ⟨⟨⟨hlo, hhi⟩, hb⟩, h4⟩
      · simp only [hlt, heq, if_false, cellsWf, Bool.and_eq_true, decide_eq_true_eq]
        exact ⟨⟨⟨h1, h2⟩, h3⟩, ih (by omega) h4⟩

/-- Canonical cells from `lo` up list no byte below `lo`. -/
theorem cellAt_below {lo hi a : Nat} (h : a < lo) :
    ∀ cells, cellsWf lo hi cells = true → cellAt a cells = Memory.unlisted := by
  intro cells
  induction cells generalizing lo with
  | nil => simp [cellAt]
  | cons c rest ih =>
    simp only [cellsWf, Bool.and_eq_true, decide_eq_true_eq]
    rintro ⟨⟨⟨h1, _⟩, _⟩, h4⟩
    rw [cellAt, if_neg (by omega)]
    exact ih (lo := c.1 + 1) (by omega) h4

/-- The byte set is the byte read, and every other byte stays. -/
theorem cellAt_insertCell {lo hi a : Nat} {b : Byte} (a'' : Nat) :
    ∀ cells, cellsWf lo hi cells = true →
      cellAt a'' (insertCell a b cells) = if a'' = a then b else cellAt a'' cells := by
  intro cells
  induction cells generalizing lo with
  | nil =>
    intro _
    by_cases hb : b = Memory.unlisted <;> by_cases ha : a'' = a <;> simp [insertCell, cellAt, hb, ha]
  | cons c rest ih =>
    obtain ⟨a', b'⟩ := c
    intro h
    simp only [cellsWf, Bool.and_eq_true, decide_eq_true_eq] at h
    obtain ⟨⟨⟨_, _⟩, _⟩, h4⟩ := h
    have hbelow : ∀ x, x ≤ a' → cellAt x rest = Memory.unlisted := fun x hx => cellAt_below (by omega) _ h4
    simp only [insertCell]
    by_cases hlt : a < a'
    · by_cases hb : b = Memory.unlisted
      · by_cases ha : a'' = a
        · subst ha
          simp [hlt, hb, cellAt, Nat.ne_of_lt hlt, hbelow a'' (by omega)]
        · simp [hlt, hb, ha]
      · simp [hlt, hb, cellAt]
    · by_cases heq : a = a'
      · subst heq
        by_cases hb : b = Memory.unlisted
        · by_cases ha : a'' = a
          · subst ha
            simp [hb, hbelow a'' (Nat.le_refl _)]
          · simp [hb, cellAt, ha]
        · by_cases ha : a'' = a <;> simp [hb, cellAt, ha]
      · simp only [hlt, heq, if_false, cellAt]
        by_cases ha : a'' = a'
        · have : a'' ≠ a := by omega
          simp [ha, Ne.symm heq]
        · simpa [ha] using ih h4

/-- A byte put is the byte read; every other read below the old end stays (read after write). -/
theorem Memory.read_put {m : Memory} (h : m.wf = true) (a : Nat) (b : Byte) (off : Nat) :
    (m.put a b).read off =
      if off = a then some b else if off < max m.size (a + 1) then some (cellAt off m.cells) else none := by
  simp only [Memory.read, Memory.put, cellAt_insertCell (lo := 0) (hi := m.size) off m.cells h]
  by_cases ha : off = a
  · simp [ha]
  · simp [ha]

/-- Putting a byte keeps the canonical form. -/
theorem Memory.put_wf {m : Memory} (h : m.wf = true) (a : Nat) (b : Byte) : (m.put a b).wf = true :=
  insertCell_wf (Nat.zero_le _) (by simp [Memory.put]) _
    (cellsWf_mono (Nat.le_refl _) (Nat.le_max_left _ _) _ h)

/-- Putting bytes keeps the canonical form. -/
theorem Memory.putBytes_wf {m : Memory} (h : m.wf = true) (a : Nat) (bs : List Byte) :
    (m.putBytes a bs).wf = true := by
  induction bs generalizing m a with
  | nil => exact h
  | cons b bs ih => exact ih (Memory.put_wf h a b) (a + 1)

/-- A loaded buffer is in canonical form. -/
theorem Memory.load_wf (bs : List Byte) : (Memory.load bs).wf = true := Memory.putBytes_wf rfl 0 bs

/-- Appending bytes behind the buffer's end makes it longer by their number. -/
theorem Memory.putBytes_size (m : Memory) (bs : List Byte) :
    (m.putBytes m.size bs).size = m.size + bs.length := by
  induction bs generalizing m with
  | nil => rfl
  | cons b bs ih =>
    have hsize : (m.put m.size b).size = m.size + 1 := by simp [Memory.put]
    have := ih (m.put m.size b)
    rw [hsize] at this
    simp [Memory.putBytes, this]
    omega

/-- R12: `N` is the number of bytes loaded. -/
@[simp] theorem Memory.load_size (bs : List Byte) : (Memory.load bs).size = bs.length := by
  simpa [Memory.load] using Memory.putBytes_size ⟨0, []⟩ bs

/-- The reset buffer is in canonical form. -/
theorem State.reset_mem_wf : State.reset.mem.wf = true := rfl

end Sys2Proof.Machine
end

