-- ==== Sys2Proof/Laws/Ops.lean ====
section
/-! SUPPORT. One lemma per shared operation that says everything it can do, the same for exec, and the
inversion of a step. -/

namespace Sys2Proof.Machine

/-- Everything `raise` can do with a next state (R118). -/
theorem raise_next {k : ErrKind} {s t : State} (h : raise k s = .next t) :
    ∃ b, s.bufRead s.cursor = some b ∧ t = (s.setErr ⟨k, s.cursor, b⟩).setDriver .error := by
  unfold raise at h
  split at h
  · next b hb => cases h; exact ⟨b, hb, rfl⟩
  · cases h

/-- Where the cursor is inside the buffer, `raise` enters `Error` (R118). -/
theorem raise_of_read {k : ErrKind} {s : State} {b : Byte} (h : s.bufRead s.cursor = some b) :
    raise k s = .next ((s.setErr ⟨k, s.cursor, b⟩).setDriver .error) := by
  simp [raise, h]

/-- Everything the shared `Dispatch` transition can do with a next state (R87, R88). -/
theorem dispatchRecord_next {r : DecodedRecord} {s t : State} (h : dispatchRecord r s = .next t) :
    s.driver = .dispatch r.sel ∧
      ((r.len ≤ s.remaining ∧ t = ((s.emit r).advance r.len).setDriver .start) ∨
       (s.remaining < r.len ∧ raise .truncated s = .next t)) := by
  unfold dispatchRecord at h
  split at h
  · next hd =>
    refine ⟨hd, ?_⟩
    by_cases hf : r.len ≤ s.remaining
    · simp only [State.fits, hf, decide_true, if_true] at h
      cases h
      exact .inl ⟨hf, rfl⟩
    · simp only [State.fits, hf, decide_false, Bool.false_eq_true, if_false] at h
      exact .inr ⟨by omega, h⟩
  · cases h

/-- The shared transition runs when the driver is in `Dispatch` of the record's class and it fits. -/
theorem dispatchRecord_of_fits {r : DecodedRecord} {s : State} (hd : s.driver = .dispatch r.sel)
    (hf : r.len ≤ s.remaining) :
    dispatchRecord r s = .next (((s.emit r).advance r.len).setDriver .start) := by
  simp [dispatchRecord, hd, State.fits, hf]

/-- Every meaning is the shared transition at the instruction's own record (R93). -/
theorem exec_eq (i : Instr) (s : State) : exec i s = dispatchRecord (recordOf s.cursor i) s := by
  cases i <;> rfl

/-- Everything the `Start` transition can do with a next state (R84 to R86). -/
theorem startStep_next {s t : State} (h : startStep s = .next t) :
    (s.remaining = 0 ∧ t = s.setDriver .done) ∨
    (s.remaining = 1 ∧ raise .truncated s = .next t) ∨
    (2 ≤ s.remaining ∧ ∃ b0, s.bufRead s.cursor = some b0 ∧
      ((∃ sel, classify b0 = .known sel ∧ t = s.setDriver (.dispatch sel)) ∨
       (classify b0 = .unknown ∧ raise .unknownOpcode s = .next t))) := by
  unfold startStep at h
  split at h
  · next h0 => cases h; exact .inl ⟨h0, rfl⟩
  · split at h
    · next h1 => exact .inr (.inl ⟨h1, h⟩)
    · split at h
      · cases h
      · next b0 hb =>
        refine .inr (.inr ⟨by omega, b0, hb, ?_⟩)
        split at h
        · next sel hc => cases h; exact .inl ⟨sel, hc, rfl⟩
        · next hc => exact .inr ⟨hc, h⟩

/-- When `fetch` hands an instruction on: its bytes stand at the cursor, it is of the class asked for,
and it fits (R87). -/
theorem fetch_run {sel : Sel} {s : State} {i : Instr} (h : fetch sel s = .run i) :
    i.sel = sel ∧ i.len ≤ s.remaining ∧
      ∃ bs, s.readBytes s.cursor i.len = some bs ∧ decode bs = .ok i [] := by
  unfold fetch at h
  split at h
  · next b0 b1 h0 h1 =>
    split at h
    · next hc =>
      split at h
      · next hf =>
        split at h
        · cases h
        · next bs hbs =>
          split at h
          · next j rest hd =>
            cases h
            obtain ⟨c0, c1, tl, hb, hcl, hlen, htot, -⟩ := decode_ok hd
            have hn : ∃ n, instrLen sel b0 b1 = n + 2 :=
              ⟨instrLen sel b0 b1 - 2, by cases sel <;> simp [instrLen] <;> omega⟩
            obtain ⟨n, hn⟩ := hn
            have hlen2 := (State.le_size_of_readBytes hbs).1
            have heads : c0 = b0 ∧ c1 = b1 := by
              rw [hn] at hbs
              simp only [State.readBytes, h0, h1] at hbs
              split at hbs
              · next x y hx hy =>
                split at hy
                · next x' y' hx' hy' =>
                  cases hx; cases hx'; cases hy; cases hbs
                  cases hb
                  exact ⟨rfl, rfl⟩
                · cases hy
              · cases hbs
            obtain ⟨rfl, rfl⟩ := heads
            have hsel : i.sel = sel := by
              rw [hc] at hcl
              cases hcl
              rfl
            rw [hsel] at hlen
            have hrest : rest = [] := by
              apply List.eq_nil_of_length_eq_zero
              omega
            subst hrest
            refine ⟨hsel, ?_, bs, by rw [hlen]; exact hbs, hd⟩
            simpa [State.fits, hlen] using hf
          · cases h
      · cases h
    · cases h
  · cases h

/-- When `fetch` ends the transition with a next state: the instruction of the class asked for does not
fit, and TRUNCATED is raised (R88). -/
theorem fetch_stop_next {sel : Sel} {s t : State} (h : fetch sel s = .stop (.next t)) :
    ∃ b0 b1, s.bufRead s.cursor = some b0 ∧ s.bufRead (s.cursor + 1) = some b1 ∧
      classify b0 = .known sel ∧ s.remaining < instrLen sel b0 b1 ∧ raise .truncated s = .next t := by
  unfold fetch at h
  split at h
  · next b0 b1 h0 h1 =>
    split at h
    · next hc =>
      split at h
      · split at h
        · cases h
        · split at h
          · cases h
          · cases h
      · next hf =>
        simp only [Fetched.stop.injEq] at h
        exact ⟨b0, b1, h0, h1, hc, by simpa [State.fits] using hf, h⟩
    · cases h
  · cases h

/-- Everything a step can do with a next state: one of the transitions R84 to R88. -/
theorem step_next {s t : State} (h : step s = .next t) :
    (s.driver = .start ∧ startStep s = .next t) ∨
    (∃ i bs, s.driver = .dispatch i.sel ∧ i.len ≤ s.remaining ∧ s.readBytes s.cursor i.len = some bs ∧
      decode bs = .ok i [] ∧ t = ((s.emit (recordOf s.cursor i)).advance i.len).setDriver .start) ∨
    (∃ sel b0 b1, s.driver = .dispatch sel ∧ s.bufRead s.cursor = some b0 ∧
      s.bufRead (s.cursor + 1) = some b1 ∧ classify b0 = .known sel ∧ s.remaining < instrLen sel b0 b1 ∧
      raise .truncated s = .next t) := by
  unfold step at h
  split at h
  · next hd => exact .inl ⟨hd, h⟩
  · next sel hd =>
    split at h
    · next i hf =>
      obtain ⟨hsel, hle, bs, hbs, hdec⟩ := fetch_run hf
      rw [exec_eq] at h
      obtain ⟨-, ⟨-, ht⟩ | ⟨hlt, -⟩⟩ := dispatchRecord_next h
      · exact .inr (.inl ⟨i, bs, by rw [hd, hsel], hle, hbs, hdec, by simpa using ht⟩)
      · rw [recordOf_len] at hlt
        omega
    · next o hf =>
      subst h
      obtain ⟨b0, b1, h0, h1, hc, hl, hr⟩ := fetch_stop_next hf
      exact .inr (.inr ⟨sel, b0, b1, hd, h0, h1, hc, hl, hr⟩)
  · cases h
  · cases h

end Sys2Proof.Machine
end

