-- ==== Sys2Proof/Laws/PerInstr.lean ====
section
/-! SUPPORT. Statements made for every instruction, one lemma per constructor. EncodedShape is about the
instruction as syntax: its encoding is as long as its row of the table says (R66), its first byte is of its
class (R57), and the table has a row of its name and length. -/

namespace Sys2Proof.Laws.EncodedShape

/-- The shape of an instruction's encoding. -/
def Statement (i : Instr) : Prop :=
  (encode i).length = i.len ∧ classify ((encode i).headD 0#8) = .known i.sel ∧
    ∃ row ∈ opcodeTable, row.mnemonic = i.mnemonic ∧ row.len = i.len

/-- The first byte of format RM is of class RM. -/
theorem classify_headRM (d w : BitVec 1) : classify (headRM d w) = .known .rm := by
  revert d w; decide

/-- The first byte of format IMM is of class IMM. -/
theorem classify_headIMM (w : BitVec 1) (reg : BitVec 3) : classify (headIMM w reg) = .known .imm := by
  revert w reg; decide

theorem movM0 (d w : BitVec 1) (reg rm : BitVec 3) : Statement (.movM0 d w reg rm) :=
  ⟨rfl, classify_headRM d w, by simp [opcodeTable, Instr.mnemonic, Instr.len]⟩

theorem movM8 (d w : BitVec 1) (reg rm : BitVec 3) (disp : Half) : Statement (.movM8 d w reg rm disp) :=
  ⟨rfl, classify_headRM d w, by simp [opcodeTable, Instr.mnemonic, Instr.len]⟩

theorem movM16 (d w : BitVec 1) (reg rm : BitVec 3) (disp : Half) : Statement (.movM16 d w reg rm disp) :=
  ⟨rfl, classify_headRM d w, by simp [opcodeTable, Instr.mnemonic, Instr.len]⟩

theorem movRR (d w : BitVec 1) (reg rm : BitVec 3) : Statement (.movRR d w reg rm) :=
  ⟨rfl, classify_headRM d w, by simp [opcodeTable, Instr.mnemonic, Instr.len]⟩

theorem movI8 (reg : BitVec 3) (imm : Half) : Statement (.movI8 reg imm) :=
  ⟨rfl, classify_headIMM 0#1 reg, by simp [opcodeTable, Instr.mnemonic, Instr.len]⟩

theorem movI16 (reg : BitVec 3) (imm : Half) : Statement (.movI16 reg imm) :=
  ⟨rfl, classify_headIMM 1#1 reg, by simp [opcodeTable, Instr.mnemonic, Instr.len]⟩

end Sys2Proof.Laws.EncodedShape
end

