-- ==== Sys2Proof/Tests/Slice0.lean ====
section
/-! SUPPORT. Small tests. Every expected value is spec/95_test_vectors.md's (L1, L2, L3) or is worked out
by hand from the rule named. The second half holds one named witness for each statement with hypotheses:
concrete values that meet all of them together, at the boundary of each clause. -/

namespace Sys2Proof.Tests

open Sys2Proof Sys2Proof.Machine

/-- The session over `bs` in `Dispatch` of `sel`, as `Start` leaves it (R85). -/
def dispatching (sel : Sel) (bs : List Byte) : State := { State.session bs with driver := .dispatch sel }

/-- The line that one step from `s` emits, where it emits one. -/
def lineOf (s : State) : Option String :=
  match step s with
  | .next t => (t.log.getLast?).map Entry.line
  | .fault _ => none
  | .refused _ => none

/-- The cursor, the driver state and the error record that `k` steps over `bs` leave. -/
def endOf (k : Nat) (bs : List Byte) : Option (Nat × Driver × Option ErrorRecord × List String) :=
  (steps k (State.session bs)).map fun t => (t.cursor, t.driver, t.err, t.lines)

/-! ## WellFormed refuses an 8-bit form whose value is no byte -/

theorem test_wf_refuses_wide_disp8 : (Instr.movM8 0 0 0 0 256).wf = false := by decide
theorem test_wf_accepts_disp8_255 : (Instr.movM8 0 0 0 0 255).wf = true := by decide
theorem test_wf_refuses_wide_imm8 : (Instr.movI8 0 256).wf = false := by decide
theorem test_wf_accepts_imm8_255 : (Instr.movI8 0 255).wf = true := by decide

/-! ## Decoding and encoding: words written out bit by bit from the patterns of R59 and R60 -/

/-- `100010dw 00rrrbbb` with d=0 w=1 r=011 b=111 (L2.6 `89 1F`). -/
theorem test_decode_movM0 : decode [0b10001001, 0b00011111] = .ok (.movM0 0 1 3 7) [] := by decide
/-- `100010dw 01rrrbbb LLLLLLLL` with d=0 w=0 r=101 b=110 L=FF (L2.7 `88 6E FF`). -/
theorem test_decode_movM8 : decode [0b10001000, 0b01101110, 0b11111111] = .ok (.movM8 0 0 5 6 255) [] := by
  decide
/-- `100010dw 10rrrbbb LLLLLLLL HHHHHHHH` with d=1 w=1 r=000 b=000 HL=1234 (L2.8). -/
theorem test_decode_movM16 :
    decode [0b10001011, 0b10000000, 0x34, 0x12] = .ok (.movM16 1 1 0 0 0x1234) [] := by decide
/-- `100010dw 11rrrbbb` with d=0 w=1 r=011 b=001 (L1-1). -/
theorem test_decode_movRR : decode [0b10001001, 0b11011001] = .ok (.movRR 0 1 3 1) [] := by decide
/-- `10110rrr iiiiiiii` with r=100 i=7F (L2.9 `B4 7F`). -/
theorem test_decode_movI8 : decode [0b10110100, 0b01111111] = .ok (.movI8 4 127) [] := by decide
/-- `10111rrr iiiiiiii jjjjjjjj` with r=010 (L2.9 `BA 6C 0F`, 0x0F6C = 3948). -/
theorem test_decode_movI16 : decode [0b10111010, 0x6C, 0x0F] = .ok (.movI16 2 3948) [] := by decide
/-- R65, C4: mod 00 with rm 110 takes no address bytes. -/
theorem test_decode_literal_bp : decode [0x8B, 0x06, 0xB0, 0x05] = .ok (.movM0 1 1 0 6) [0xB0, 0x05] := by
  decide
/-- Encoding goes back to the words of L2.7, L2.8 and L2.9. -/
theorem test_encode_words :
    encode (.movM8 0 0 5 6 255) = [0x88, 0x6E, 0xFF] ∧ encode (.movM16 0 1 2 6 65535) = [0x89, 0x96, 0xFF, 0xFF] ∧
    encode (.movI16 2 3948) = [0xBA, 0x6C, 0x0F] := by decide
set_option maxRecDepth 4000 in
/-- R65: 4 first bytes of class RM, 16 of class IMM, 236 of none. -/
theorem test_classify_counts :
    ((List.range 256).countP fun n => classify (BitVec.ofNat 8 n) == .known .rm) = 4 ∧
    ((List.range 256).countP fun n => classify (BitVec.ofNat 8 n) == .known .imm) = 16 ∧
    ((List.range 256).countP fun n => classify (BitVec.ofNat 8 n) == .unknown) = 236 := by decide
/-- L2.1: the extractor's fields of `89 D9`, and of `B8`. -/
theorem test_extract : extract 0x89 0xD9 = ⟨0b100010, 0, 1, 0b11, 0b011, 0b001⟩ ∧ extractImm 0xB8 = ⟨0b1011, 1, 0⟩ := by
  decide
/-- R114, R116, R123: refusals by name. -/
theorem test_decode_refusals :
    decode [] = .refused .noBytes ∧ decode [0x00] = .refused .truncated ∧
    decode [0x8C, 0xC0] = .refused (.unknownOpcode 0x8C) ∧ decode [0x8B, 0x80, 0x34] = .refused .truncated := by decide
/-- The table's numbering (R66): `H = (b0 << 8) | b1`; later bytes count on from bit 16. -/
theorem test_decodeTableWord :
    decodeTableWord 16 0x8840 = some (.movM8 0 0 0 0 0) ∧
    decodeTableWord 24 0x0FBA6C = some (.movI16 2 3948) := by decide

/-! ## One step on a placed word -/

/-- The next step runs the placed instruction and leaves its line (L2.6 `88 00`). -/
theorem test_withFetchWord_movM0 : lineOf (State.reset.withFetchWord 16 0x8800) = some "mov [bx + si], al" := by
  decide
theorem test_withFetchWord_movI16 : lineOf (State.reset.withFetchWord 16 0xB800) = some "mov ax, 0" := by decide

/-! ## Lines: one step from Dispatch, two per instruction (L1, L2) -/

theorem test_movM0_dest_register : lineOf (dispatching .rm [0x8A, 0x00]) = some "mov al, [bx + si]" := by decide
theorem test_movM0_literal_bp : lineOf (dispatching .rm [0x8B, 0x36]) = some "mov si, [bp]" := by decide
theorem test_movM8_zero_extends : lineOf (dispatching .rm [0x88, 0x6E, 0xFF]) = some "mov [bp + 255], ch" := by decide
theorem test_movM8_zero_rendered : lineOf (dispatching .rm [0x8B, 0x46, 0x00]) = some "mov ax, [bp + 0]" := by decide
theorem test_movM16_little_endian :
    lineOf (dispatching .rm [0x8B, 0x80, 0x34, 0x12]) = some "mov ax, [bx + si + 4660]" := by decide
theorem test_movM16_unsigned :
    lineOf (dispatching .rm [0x89, 0x96, 0xFF, 0xFF]) = some "mov [bp + 65535], dx" := by decide
theorem test_movRR_direction : lineOf (dispatching .rm [0x8B, 0xCB]) = some "mov cx, bx" := by decide
theorem test_movRR_high_bytes : lineOf (dispatching .rm [0x8A, 0xE0]) = some "mov ah, al" := by decide
theorem test_movI8_unsigned : lineOf (dispatching .imm [0xB1, 0x80]) = some "mov cl, 128" := by decide
theorem test_movI8_zero : lineOf (dispatching .imm [0xB0, 0x00]) = some "mov al, 0" := by decide
theorem test_movI16_value : lineOf (dispatching .imm [0xBA, 0x6C, 0x0F]) = some "mov dx, 3948" := by decide
theorem test_movI16_max : lineOf (dispatching .imm [0xBF, 0xFF, 0xFF]) = some "mov di, 65535" := by decide

/-! ## Errors and ends (L1-4, L1-5, L2.10, P4) -/

theorem test_empty_buffer : endOf 1 [] = some (0, .done, none, []) := by decide
theorem test_lone_unknown_byte_is_truncated :
    endOf 1 [0x00] = some (0, .error, some ⟨.truncated, 0, 0x00⟩, []) := by decide
theorem test_unknown_opcode : endOf 1 [0x8C, 0xC0] = some (0, .error, some ⟨.unknownOpcode, 0, 0x8C⟩, []) := by
  decide
theorem test_truncated_in_dispatch : endOf 2 [0x8B, 0x80, 0x34] = some (0, .error, some ⟨.truncated, 0, 0x8B⟩, []) := by
  decide
theorem test_partial_output_kept :
    endOf 3 [0x89, 0xD9, 0xC6, 0x00] = some (2, .error, some ⟨.unknownOpcode, 2, 0xC6⟩, ["mov cx, bx"]) := by decide
/-- P4: STATUS after the error, in a build with a 4-bit cursor. -/
theorem test_status_after_error :
    (steps 4 (State.session [0x89, 0xD9, 0xB8, 0x01])).map (status ⟨4⟩) = some ⟨3, 0, 1, 0xB8, 2, 2⟩ := by decide
/-- L2.10 `8C C0`: err_kind reads 2 for UNKNOWN_OPCODE (R113), in a build with a 4-bit cursor. -/
theorem test_status_unknownOpcode :
    (steps 1 (State.session [0x8C, 0xC0])).map (status ⟨4⟩) = some ⟨3, 0, 2, 0x8C, 0, 0⟩ := by decide
/-- A byte put as 0 leaves no cell (the canonical form). -/
theorem test_memory_canonical : (Memory.load [0x00, 0x8A, 0x00]).cells = [(1, 0x8A)] ∧
    ((Memory.load [0x8A]).put 0 0).cells = [] := by decide

/-! ## Witnesses: for each statement with hypotheses, values that meet them together -/

theorem witness_DecodeOfEncodedInstruction : (Instr.movI8 7 255).wf = true := by decide
theorem witness_EncodeOfDecodedBytes : decode [0x89, 0xD9, 0xB8] = .ok (.movRR 0 1 3 1) [0xB8] := by decide
theorem witness_RegisterFormRoundTrip : classify 0x88 = .known .rm ∧ (extract 0x88 0xFF).mod = 0b11#2 := by decide
theorem witness_DecodedInstructionIsOfItsRow :
    decode (0x8B :: 0x80 :: [0x34, 0x12, 0x90]) = .ok (.movM16 1 1 0 0 4660) [0x90] := by decide
theorem witness_OpcodeRowsDisjointAndExact :
    ∃ row ∈ opcodeTable, row.covers 0x88 0x40 = true ∧ row.mnemonic = "MOV.M8" := by decide
/-- The ends of both classes' ranges and their neighbours. -/
theorem witness_ClassifierOfFirstByte :
    (0x8B#8).extractLsb' 2 6 = 0b100010#6 ∧ (0xBF#8).extractLsb' 4 4 = 0b1011#4 ∧
    (0x8C#8).extractLsb' 2 6 ≠ 0b100010#6 ∧ (0xC0#8).extractLsb' 4 4 ≠ 0b1011#4 ∧
    (0x8C#8).extractLsb' 4 4 ≠ 0b1011#4 := by decide
theorem witness_LengthFunction :
    (0x3F#8).extractLsb' 6 2 = 0b00#2 ∧ (0x40#8).extractLsb' 6 2 = 0b01#2 ∧ (0xBF#8).extractLsb' 6 2 = 0b10#2 ∧
    (0xC0#8).extractLsb' 6 2 = 0b11#2 := by decide
theorem witness_DisplacementAssembly :
    classify 0x88 = .known .rm ∧ (extract 0x88 0x06).mod = 0b00#2 ∧ (extract 0x88 0x46).mod = 0b01#2 ∧
    (extract 0x88 0x86).mod = 0b10#2 ∧ (extract 0x88 0xC6).mod = 0b11#2 := by decide
theorem witness_ImmediateAssembly :
    classify 0xB7 = .known .imm ∧ (extractImm 0xB7).wi = 0#1 ∧ classify 0xB8 = .known .imm ∧
    (extractImm 0xB8).wi = 1#1 := by decide
theorem witness_DecoderRefusals :
    classify 0x90 = .unknown ∧ classify 0x8B = .known .rm ∧ [0x34#8].length + 2 < instrLen .rm 0x8B 0x80 := by decide
theorem witness_StartWithNoBytesEndsInDone :
    (State.session []).driver = .start ∧ (State.session []).remaining = 0 := by decide
theorem witness_StartDispatchesKnownOpcode :
    (State.session [0xB0, 0xFF]).driver = .start ∧ 2 ≤ (State.session [0xB0, 0xFF]).remaining ∧
    (State.session [0xB0, 0xFF]).bufRead 0 = some 0xB0 ∧ classify 0xB0 = .known .imm := by decide
/-- Clause 1 at one byte, clause 2 at two. -/
theorem witness_StartErrors :
    (State.session [0x00]).driver = .start ∧ (State.session [0x00]).remaining = 1 ∧
    (State.session [0x00, 0x00]).remaining = 2 ∧ (State.session [0x00, 0x00]).bufRead 0 = some 0x00 ∧
    classify 0x00 = .unknown := by decide
/-- A length that just fits. -/
theorem witness_DispatchEmitsAndAdvances :
    let s := dispatching .rm [0x88, 0x40, 0x05]
    s.driver = .dispatch .rm ∧ s.bufRead s.cursor = some 0x88 ∧ s.bufRead (s.cursor + 1) = some 0x40 ∧
    classify 0x88 = .known .rm ∧ instrLen .rm 0x88 0x40 = s.remaining := by decide
/-- A length one too long. -/
theorem witness_DispatchTruncated :
    let s := dispatching .imm [0xB8, 0x01]
    s.driver = .dispatch .imm ∧ s.bufRead s.cursor = some 0xB8 ∧ s.bufRead (s.cursor + 1) = some 0x01 ∧
    classify 0xB8 = .known .imm ∧ s.remaining + 1 = instrLen .imm 0xB8 0x01 := by decide
theorem witness_StepRunsDecodedInstruction :
    (dispatching .imm [0xB0, 0xFF, 0x89]).readBytes 0 3 = some [0xB0, 0xFF, 0x89] ∧
    decode [0xB0, 0xFF, 0x89] = .ok (.movI8 0 255) [0x89] ∧
    (State.session [0xB0, 0xFF, 0x89]).driver = .start ∧
    (dispatching .imm [0xB0, 0xFF, 0x89]).driver = .dispatch (Instr.movI8 0 255).sel := by decide
theorem witness_MovM0Emits :
    (dispatching .rm [0x8B, 0x06]).driver = .dispatch .rm ∧ 2 = (dispatching .rm [0x8B, 0x06]).remaining := by decide
theorem witness_MovM8Emits :
    (dispatching .rm [0x8B, 0x46, 0]).driver = .dispatch .rm ∧ 3 = (dispatching .rm [0x8B, 0x46, 0]).remaining := by
  decide
theorem witness_MovM16Emits :
    (dispatching .rm [0x8B, 0x86, 0, 0]).driver = .dispatch .rm ∧
    4 = (dispatching .rm [0x8B, 0x86, 0, 0]).remaining := by decide
theorem witness_MovRREmits :
    (dispatching .rm [0x8B, 0xC0]).driver = .dispatch .rm ∧ 2 = (dispatching .rm [0x8B, 0xC0]).remaining := by decide
theorem witness_MovI8Emits :
    (dispatching .imm [0xB0, 0]).driver = .dispatch .imm ∧ 2 = (dispatching .imm [0xB0, 0]).remaining := by decide
theorem witness_MovI16Emits :
    (dispatching .imm [0xB8, 0, 0]).driver = .dispatch .imm ∧ 3 = (dispatching .imm [0xB8, 0, 0]).remaining := by decide
theorem witness_ExecTruncatesWhereItDoesNotFit :
    let s := dispatching .rm [0x8B, 0x80, 0x34]
    s.driver = .dispatch (Instr.movM16 1 1 0 0 0x34).sel ∧ s.bufRead s.cursor = some 0x8B ∧
    s.remaining + 1 = (Instr.movM16 1 1 0 0 0x34).len := by decide

/-- What the first half of OnlyLongRowsTruncate assumes, over the bytes `bs` and the header `b0`, `b1`. -/
def TruncatesInDispatch (sel : Sel) (bs : List Byte) (b0 b1 : Byte) : Prop :=
  let s := dispatching sel bs
  s.driver = .dispatch sel ∧ 2 ≤ s.remaining ∧ s.bufRead s.cursor = some b0 ∧
    s.bufRead (s.cursor + 1) = some b1 ∧ ∃ t, step s = .next t ∧ t.driver = .error

/-- First half: each row and remaining count of R115 occurs (mod 01 at R = 2, mod 10 at R = 2 and 3, w = 1 at
R = 2). Second half: exec of `MOV.M16` with two bytes left. -/
theorem witness_OnlyLongRowsTruncate :
    TruncatesInDispatch .rm [0x88, 0x40] 0x88 0x40 ∧ TruncatesInDispatch .rm [0x8B, 0x80] 0x8B 0x80 ∧
    TruncatesInDispatch .rm [0x8B, 0x80, 0x34] 0x8B 0x80 ∧ TruncatesInDispatch .imm [0xB8, 0x01] 0xB8 0x01 ∧
    2 ≤ (dispatching .rm [0x8B, 0x80]).remaining ∧
    ∃ t, exec (.movM16 1 1 0 0 0) (dispatching .rm [0x8B, 0x80]) = .next t ∧ t.driver = .error :=
  ⟨⟨rfl, by decide, rfl, rfl, _, rfl, rfl⟩, ⟨rfl, by decide, rfl, rfl, _, rfl, rfl⟩,
   ⟨rfl, by decide, rfl, rfl, _, rfl, rfl⟩, ⟨rfl, by decide, rfl, rfl, _, rfl, rfl⟩, by decide, _, rfl, rfl⟩
/-- Both outcomes of the frame occur. -/
theorem witness_ExecFrame :
    (∃ t, exec (.movI16 0 1) (dispatching .imm [0xB8, 0x01, 0x00]) = .next t ∧ t.driver = .start) ∧
    (∃ t, exec (.movI16 0 1) (dispatching .imm [0xB8, 0x01]) = .next t ∧ t.driver = .error) :=
  ⟨⟨_, rfl, rfl⟩, ⟨_, rfl, rfl⟩⟩
theorem witness_BufferIsNeverWritten :
    (∃ t, step (dispatching .imm [0xB0, 0x05]) = .next t) ∧ ∃ t, steps 2 (State.session [0xB0, 0x05]) = some t :=
  ⟨⟨_, rfl⟩, ⟨_, rfl⟩⟩
theorem witness_LogIsAppendOnly : ∃ t, step (dispatching .imm [0xB0, 0x05]) = .next t ∧ t.log ≠ [] :=
  ⟨_, rfl, by decide⟩
/-- The longest instruction, and the narrowest register R15 admits for its buffer. -/
theorem witness_CursorAdvance :
    (∃ t, step (dispatching .rm [0x8B, 0x86, 0, 0]) = .next t ∧ t.cursor = 4) ∧
    Config.admits ⟨3⟩ (dispatching .rm [0x8B, 0x86, 0, 0]).mem.size :=
  ⟨⟨_, rfl, rfl⟩, by decide⟩
theorem witness_ErrorEntry : ∃ t, step (State.session [0x90, 0x90]) = .next t ∧ t.driver = .error :=
  ⟨_, rfl, rfl⟩
theorem witness_TerminalStatesAreFinal :
    ({ State.reset with driver := .done } : State).driver = .done ∧
    ({ State.reset with driver := .error } : State).driver = .error := by decide
theorem witness_DispatchFollowsStart : ∃ t, step (State.session [0xB0, 0x05]) = .next t ∧ t.driver = .dispatch .imm :=
  ⟨_, rfl, rfl⟩
theorem witness_LogNeverReadBack : ∃ t, step (dispatching .imm [0xB0, 0x05]) = .next t := ⟨_, rfl⟩
/-- Two buffers of one length that differ behind the four bytes at the cursor. -/
theorem witness_StepReadsOnlyTheInstruction :
    (Memory.load [0xB0, 0x05, 0, 0, 1]).size = (dispatching .imm [0xB0, 0x05, 0, 0, 2]).mem.size ∧
    (∀ a < 4, (Memory.load [0xB0, 0x05, 0, 0, 1]).read a = (dispatching .imm [0xB0, 0x05, 0, 0, 2]).mem.read a) ∧
    Memory.load [0xB0, 0x05, 0, 0, 1] ≠ (dispatching .imm [0xB0, 0x05, 0, 0, 2]).mem ∧
    ∃ t, step (dispatching .imm [0xB0, 0x05, 0, 0, 2]) = .next t :=
  ⟨by decide, by decide, by decide, _, rfl⟩

/-- A state in `Dispatch`, one entry logged, that meets the session invariant (after L1-1's word). -/
def midSession : State where
  mem := Memory.load [0x89, 0xD9, 0xB0, 0x05]
  cursor := 2
  driver := .dispatch .imm
  log := [⟨.regMem ⟨0, 2, 0, 1, 3, 3, 1, none⟩, "mov cx, bx"⟩]
  err := none

theorem midSession_inv : midSession.Inv where
  memWf := by decide
  cursorLe := by decide
  tiled := ⟨rfl, rfl⟩
  faithful := by
    intro e he
    have he : e = ⟨.regMem ⟨0, 2, 0, 1, 3, 3, 1, none⟩, "mov cx, bx"⟩ := by simpa [midSession] using he
    subst he
    exact ⟨[0x89, 0xD9], .movRR 0 1 3 1, by decide, by decide, by decide⟩
  driverOk := ⟨rfl, by decide, 0xB0, by decide, by decide⟩

theorem witness_StepKeepsInv : midSession.Inv ∧ ∃ t, step midSession = .next t := ⟨midSession_inv, _, rfl⟩
theorem witness_ProgressOutsideTerminalStates :
    midSession.Inv ∧ midSession.driver ≠ .done ∧ midSession.driver ≠ .error := ⟨midSession_inv, by decide, by decide⟩
theorem witness_SessionTerminates :
    ((steps 3 (State.session [0x89, 0xD9])).map State.driver = some .done) ∧
    ((steps 1 (State.session [0x89])).map State.driver = some .error) ∧
    ((steps 2 (State.session [0xB8, 0x01])).map State.driver = some .error) := by decide
theorem witness_SuccessTilesTheBuffer : ∃ t, steps 3 (State.session [0x89, 0xD9]) = some t ∧ t.driver = .done :=
  ⟨_, rfl, rfl⟩
theorem witness_EncodedBufferDecodesWhole :
    ∀ i ∈ [Instr.movRR 0 1 3 1, Instr.movI8 0 5], i.wf = true := by decide
theorem witness_ErrorIsPrecise :
    ∃ t, steps 3 (State.session [0x89, 0xD9, 0x90, 0x90]) = some t ∧ t.driver = .error ∧ t.log ≠ [] :=
  ⟨_, rfl, rfl, by decide⟩
/-- One entry of each of the five shapes that have a law: the widths of IMM and the modes 00, 01, 10. -/
theorem witness_RecordRangeAndConsumption :
    ((steps 2 (State.session [0xB0, 0xFF])).map fun t => t.log.map Entry.record) =
        some [.immReg ⟨0, 2, 0, 0, 255⟩] ∧
    ((steps 2 (State.session [0xBF, 0xFF, 0xFF])).map fun t => t.log.map Entry.record) =
        some [.immReg ⟨0, 3, 1, 7, 65535⟩] ∧
    ((steps 2 (State.session [0x8B, 0x00])).map fun t => t.log.map Entry.record) =
        some [.regMem ⟨0, 2, 1, 1, 0, 0, 0, none⟩] ∧
    ((steps 2 (State.session [0x8B, 0x40, 0x00])).map fun t => t.log.map Entry.record) =
        some [.regMem ⟨0, 3, 1, 1, 1, 0, 0, some 0⟩] ∧
    ((steps 2 (State.session [0x8B, 0x80, 0x00, 0x00])).map fun t => t.log.map Entry.record) =
        some [.regMem ⟨0, 4, 1, 1, 2, 0, 0, some 0⟩] := by decide
theorem witness_CanonicalBuffersAreEqualData :
    (Memory.load [0x00, 0x8A]).wf = true ∧ ((Memory.load [0x01, 0x8A]).put 0 0).wf = true ∧
    (Memory.load [0x00, 0x8A]).size = ((Memory.load [0x01, 0x8A]).put 0 0).size := by decide

/-- The session over `bs` in `Error` with its first byte `b` recorded, as R118 leaves it. -/
def failed (bs : List Byte) (k : ErrKind) (b : Byte) : State :=
  { State.session bs with driver := .error, err := some ⟨k, 0, b⟩ }

theorem failed_truncated_inv : (failed [0x89] .truncated 0x89).Inv where
  memWf := by decide
  cursorLe := by decide
  tiled := rfl
  faithful := by simp [failed]
  driverOk := ⟨.truncated, 0x89, rfl, by decide, .inl (by decide)⟩

theorem failed_unknownOpcode_inv : (failed [0x90, 0x90] .unknownOpcode 0x90).Inv where
  memWf := by decide
  cursorLe := by decide
  tiled := rfl
  faithful := by simp [failed]
  driverOk := ⟨.unknownOpcode, 0x90, rfl, by decide, by decide, by decide⟩

/-- Outside `Error` and with each kind of error, at the narrowest cursor register admitted for each buffer. -/
theorem witness_StatusShowsTheState :
    (midSession.Inv ∧ Config.admits ⟨3⟩ midSession.mem.size ∧ midSession.driver ≠ .error) ∧
    ((failed [0x89] .truncated 0x89).Inv ∧ Config.admits ⟨1⟩ (failed [0x89] .truncated 0x89).mem.size ∧
      (failed [0x89] .truncated 0x89).driver = .error) ∧
    ((failed [0x90, 0x90] .unknownOpcode 0x90).Inv ∧
      Config.admits ⟨2⟩ (failed [0x90, 0x90] .unknownOpcode 0x90).mem.size ∧
      (failed [0x90, 0x90] .unknownOpcode 0x90).driver = .error) :=
  ⟨⟨midSession_inv, by decide, by decide⟩, ⟨failed_truncated_inv, by decide, rfl⟩,
   ⟨failed_unknownOpcode_inv, by decide, rfl⟩⟩
theorem witness_DecimalIsExact : (dec 0).toList.head? = some '0' ∧ dec 65535 = "65535" := by decide

end Sys2Proof.Tests
end

section
/-! PROOFS. The transitions of one step as cases to reason by, and what every step and every session keeps. -/

namespace Sys2Proof.Machine

/-! ## What a step does, by its outcome -/

/-- The four outcomes of a step that answers a next state: `Done` (R84), `Dispatch` (R85), the entry of one
instruction (R87), `Error` (R86, R88). -/
inductive Transition (s : State) : State → Prop where
  | finished (start : s.driver = .start) (empty : s.remaining = 0) : Transition s (s.setDriver .done)
  | classified {sel : Sel} {b0 : Byte} (start : s.driver = .start) (two : 2 ≤ s.remaining)
      (read : s.bufRead s.cursor = some b0) (known : classify b0 = .known sel) :
      Transition s (s.setDriver (.dispatch sel))
  | emitted {i : Instr} {bs : List Byte} (dispatch : s.driver = .dispatch i.sel) (fits : i.len ≤ s.remaining)
      (read : s.readBytes s.cursor i.len = some bs) (decoded : decode bs = .ok i []) :
      Transition s (((s.emit (recordOf s.cursor i)).advance i.len).setDriver .start)
  | failed {k : ErrKind} {b : Byte} (notDone : s.driver ≠ .done) (notError : s.driver ≠ .error)
      (read : s.bufRead s.cursor = some b) (justified : errorJustified s k b) :
      Transition s ((s.setErr ⟨k, s.cursor, b⟩).setDriver .error)

/-- An error raised in `Start` or `Dispatch` for a cause in the buffer is the failing outcome (R118). -/
theorem Transition.of_raise {k : ErrKind} {s t : State} (h : raise k s = .next t) (hdone : s.driver ≠ .done)
    (herror : s.driver ≠ .error) (hcause : ∀ b, s.bufRead s.cursor = some b → errorJustified s k b) :
    Transition s t := by
  obtain ⟨b, hb, rfl⟩ := raise_next h
  exact .failed hdone herror hb (hcause b hb)

/-- The outcomes of a step from `Start` (R84 to R86). -/
theorem Transition.of_startStep {s t : State} (hd : s.driver = .start) (h : startStep s = .next t) :
    Transition s t := by
  have hdone : s.driver ≠ .done := by simp [hd]
  have herror : s.driver ≠ .error := by simp [hd]
  obtain ⟨h0, rfl⟩ | ⟨h1, hr⟩ | ⟨h2, b0, hb, ⟨sel, hc, rfl⟩ | ⟨hc, hr⟩⟩ := startStep_next h
  · exact .finished hd h0
  · exact .of_raise hr hdone herror fun _ _ => .inl h1
  · exact .classified hd h2 hb hc
  · refine .of_raise hr hdone herror fun b hb' => ⟨h2, ?_⟩
    obtain rfl : b0 = b := Option.some.inj (hb.symm.trans hb')
    exact hc

/-- Every step that answers a next state has one of the four outcomes. -/
theorem Transition.of_step {s t : State} (h : step s = .next t) : Transition s t := by
  obtain ⟨hd, hs⟩ | ⟨i, bs, hd, hle, hbs, hdec, rfl⟩ | ⟨sel, b0, b1, hd, h0, h1, hc, hlt, hr⟩ := step_next h
  · exact .of_startStep hd hs
  · exact .emitted hd hle hbs hdec
  · refine .of_raise hr (by simp [hd]) (by simp [hd]) fun b hb => ?_
    obtain rfl : b0 = b := Option.some.inj (h0.symm.trans hb)
    exact .inr ⟨sel, b1, hc, h1, hlt⟩

/-- No outcome writes the buffer (R53). -/
theorem Transition.mem_eq {s t : State} (h : Transition s t) : t.mem = s.mem := by
  cases h <;> rfl

/-! ## What an invariant of every step gives of a run -/

/-- What holds of a state and is kept by every step holds after any number of steps. -/
theorem steps_keep {P : State → Prop} (hstep : ∀ s t, P s → step s = .next t → P t) {k : Nat} {s t : State}
    (h : steps k s = some t) (hs : P s) : P t := by
  induction k generalizing s with
  | zero => cases h; exact hs
  | succ k ih =>
    unfold steps at h
    split at h
    · next u hu => exact ih h (hstep s u hs hu)
    · cases h
    · cases h

/-- No run writes the buffer (R53). -/
theorem steps_mem {k : Nat} {s t : State} (h : steps k s = some t) : t.mem = s.mem :=
  steps_keep (P := fun u => u.mem = s.mem) (fun _ _ hu hut => (Transition.of_step hut).mem_eq.trans hu) h rfl

/-! ## What a loaded buffer reads -/

/-- Bytes put behind the buffer's end are read there, and the reads below the end stay. -/
theorem Memory.read_putBytes_size {m : Memory} (hm : m.wf = true) (bs : List Byte) (a : Nat) :
    (m.putBytes m.size bs).read a = if a < m.size then m.read a else bs[a - m.size]? := by
  induction bs generalizing m with
  | nil => by_cases ha : a < m.size <;> simp [Memory.putBytes, Memory.read, ha]
  | cons b bs ih =>
    have hsize : (m.put m.size b).size = m.size + 1 := by simp [Memory.put]
    have hput : (m.putBytes m.size (b :: bs)).read a =
        if a < m.size + 1 then (m.put m.size b).read a else bs[a - (m.size + 1)]? := by
      have htail := ih (Memory.put_wf hm m.size b)
      rwa [hsize] at htail
    rw [hput, Memory.read_put hm]
    obtain hlt | rfl | hgt := Nat.lt_trichotomy a m.size
    · simp [hlt, Nat.lt_succ_of_lt hlt, Nat.ne_of_lt hlt, Memory.read]
    · simp
    · have hnlt : ¬ a < m.size := by omega
      have hnlt' : ¬ a < m.size + 1 := by omega
      have hindex : a - m.size = a - (m.size + 1) + 1 := by omega
      simp only [hnlt, hnlt', hindex, if_false, List.getElem?_cons_succ]

/-- R42, R137: a loaded buffer reads as the bytes supplied. -/
theorem Memory.read_load (bs : List Byte) (a : Nat) : (Memory.load bs).read a = bs[a]? := by
  simpa [Memory.load] using Memory.read_putBytes_size (m := ⟨0, []⟩) rfl bs a

/-! ## The session invariant -/

/-- One more entry at the end of the tiled range lengthens it by the entry's length (R83). -/
theorem tiles_concat {lo hi : Nat} {es : List Entry} {e : Entry} (h : tiles lo hi es) (he : e.record.off = hi) :
    tiles lo (hi + e.record.len) (es ++ [e]) := by
  induction es generalizing lo with
  | nil =>
    obtain rfl : lo = hi := h
    exact ⟨he, rfl⟩
  | cons e' es ih =>
    obtain ⟨hoff, htail⟩ := h
    exact ⟨hoff, ih htail⟩

/-- Whether an entry is faithful depends on the buffer alone. -/
theorem entryFaithful.of_mem_eq {s t : State} {e : Entry} (hmem : t.mem = s.mem) (h : entryFaithful s e) :
    entryFaithful t e := by
  obtain ⟨bs, i, hbs, hdec, he⟩ := h
  exact ⟨bs, i, (State.readBytes_eq_of_mem hmem _ _).trans hbs, hdec, he⟩

/-- The entry of the instruction that stands at an offset is faithful (R53, R92). -/
theorem entryFaithful_entryOf {s : State} {off : Nat} {i : Instr} {bs : List Byte}
    (hbs : s.readBytes off i.len = some bs) (hdec : decode bs = .ok i []) : entryFaithful s (entryOf off i) :=
  ⟨bs, i, by simpa [entryOf] using hbs, hdec, by simp [entryOf]⟩

/-- Of the invariant, what does not speak of the driver is kept by a step that leaves `B`, `C` and `O`. -/
theorem State.Inv.of_same_log {s t : State} (h : s.Inv) (hmem : t.mem = s.mem) (hcursor : t.cursor = s.cursor)
    (hlog : t.log = s.log) (hdriver : driverConsistent t) : t.Inv where
  memWf := hmem ▸ h.memWf
  cursorLe := by rw [hmem, hcursor]; exact h.cursorLe
  tiled := by rw [hcursor, hlog]; exact h.tiled
  faithful := fun e he => (h.faithful e (hlog ▸ he)).of_mem_eq hmem
  driverOk := hdriver

/-- The invariant is kept where the instruction at the cursor is emitted and the cursor passes it (R87). -/
theorem State.Inv.after_emit {s : State} {i : Instr} {bs : List Byte} (h : s.Inv) (herr : s.err = none)
    (hfits : i.len ≤ s.remaining) (hbs : s.readBytes s.cursor i.len = some bs) (hdec : decode bs = .ok i []) :
    (((s.emit (recordOf s.cursor i)).advance i.len).setDriver .start).Inv where
  memWf := h.memWf
  cursorLe := by
    have hle := h.cursorLe
    simp only [State.remaining] at hfits
    simp only [State.setDriver_cursor, State.advance_cursor, State.emit_cursor, State.setDriver_mem,
      State.advance_mem, State.emit_mem]
    omega
  tiled := by simpa [entryOf] using tiles_concat (e := entryOf s.cursor i) h.tiled (by simp [entryOf])
  faithful := by
    intro e he
    obtain he | rfl : e ∈ s.log ∨ e = entryOf s.cursor i := by simpa [entryOf] using he
    · exact entryFaithful.of_mem_eq (s := s) rfl (h.faithful e he)
    · exact entryFaithful.of_mem_eq (s := s) rfl (entryFaithful_entryOf hbs hdec)
  driverOk := herr

/-- `E` is none outside `Error` (R27). -/
theorem State.Inv.err_eq_none {s : State} (h : s.Inv) (hd : s.driver ≠ .error) : s.err = none := by
  have hok := h.driverOk
  unfold driverConsistent at hok
  split at hok
  · exact hok
  · exact hok.1
  · exact hok.1
  · next herror => exact absurd herror hd

/-- Every outcome of a step keeps the session invariant. -/
theorem Transition.keeps_inv {s t : State} (h : s.Inv) (ht : Transition s t) : t.Inv := by
  cases ht with
  | finished start empty =>
    refine h.of_same_log rfl rfl rfl ⟨h.err_eq_none (by simp [start]), ?_⟩
    have hle := h.cursorLe
    simp only [State.remaining] at empty
    show s.cursor = s.mem.size
    omega
  | classified start two read known =>
    exact h.of_same_log rfl rfl rfl ⟨h.err_eq_none (by simp [start]), two, _, read, known⟩
  | emitted dispatch fits read decoded =>
    exact h.after_emit (h.err_eq_none (by simp [dispatch])) fits read decoded
  | failed _ _ read justified =>
    exact h.of_same_log rfl rfl rfl ⟨_, _, rfl, read, justified⟩

/-- The session over no bytes begins in the reset state (R12, R40). -/
theorem State.session_nil : State.session [] = State.reset := rfl

/-- A session begins in its invariant: nothing is consumed, logged or raised (R40, R137). -/
theorem State.session_inv (bs : List Byte) : (State.session bs).Inv where
  memWf := Memory.load_wf bs
  cursorLe := Nat.zero_le _
  tiled := rfl
  faithful := by simp
  driverOk := rfl

/-! ## The statements about the state -/

/-- Settles O38, by the outcome of the step. -/
theorem stepKeepsInv : Obligations.StepKeepsInv :=
  fun _ _ hs hstep => (Transition.of_step hstep).keeps_inv hs

/-- Settles O27: the buffer along a run is the one loaded. -/
theorem bufferIsNeverWritten : Obligations.BufferIsNeverWritten := by
  refine ⟨fun _ _ hstep => (Transition.of_step hstep).mem_eq, fun bs k t hrun a => ?_⟩
  calc t.bufRead a
    _ = (State.session bs).bufRead a := State.bufRead_eq_of_mem (steps_mem hrun) a
    _ = bs[a]? := Memory.read_load bs a

/-- Settles O28: of the four outcomes only the emitting one touches the log. -/
theorem logIsAppendOnly : Obligations.LogIsAppendOnly := by
  intro s t hstep
  cases Transition.of_step hstep with
  | finished => exact .inl rfl
  | classified => exact .inl rfl
  | @emitted i _ dispatch => exact .inr ⟨i.sel, entryOf s.cursor i, dispatch, rfl, rfl, by simp [entryOf], rfl⟩
  | failed => exact .inl rfl

/-- Settles O37: the loaded buffer is canonical and the fresh session state says nothing more. -/
theorem sessionBeginsInInv : Obligations.SessionBeginsInInv := State.session_inv

/-- Settles O36: reset is the session over no bytes. -/
theorem resetMeetsInv : Obligations.ResetMeetsInv := by
  unfold Obligations.ResetMeetsInv
  rw [← State.session_nil]
  exact State.session_inv []

end Sys2Proof.Machine
end

section
/-! PROOFS. The statements about the buffer and the log: what every instruction leaves unchanged, what of
them a step reads, and that a buffer is its length and its reads. -/

namespace Sys2Proof.Machine

/-! ## The frame of every instruction -/

/-- R81: the remaining count holds a length above 0 exactly when the bytes end at or below `N`. -/
theorem State.le_remaining_iff {s : State} {n : Nat} (hn : 0 < n) :
    n ≤ s.remaining ↔ s.cursor + n ≤ s.mem.size := by
  simp only [State.remaining]
  omega

/-- Everything an instruction's meaning can do with a next state (R87, R88). -/
theorem exec_next {i : Instr} {s t : State} (h : exec i s = .next t) :
    (s.cursor + i.len ≤ s.mem.size ∧ t = ((s.emit (recordOf s.cursor i)).advance i.len).setDriver .start) ∨
    (s.mem.size < s.cursor + i.len ∧ ∃ b, s.bufRead s.cursor = some b ∧
      t = (s.setErr ⟨.truncated, s.cursor, b⟩).setDriver .error) := by
  have hlen := State.le_remaining_iff (s := s) (n := i.len) (by have := i.len_bounds; omega)
  rw [exec_eq] at h
  obtain ⟨-, hcases⟩ := dispatchRecord_next h
  rw [recordOf_len] at hcases
  obtain ⟨hfits, ht⟩ | ⟨hlong, hraise⟩ := hcases
  · exact .inl ⟨hlen.mp hfits, ht⟩
  · exact .inr ⟨by omega, raise_next hraise⟩

/-! ## What of the buffer and the log a step reads -/

/-- The session of `s` over the buffer `m`, with the entries `l` before its log. -/
def State.reframe (s : State) (l : List Entry) (m : Memory) : State := { s with mem := m, log := l ++ s.log }

/-- `m` has the length of the buffer of `s` and the four bytes at its cursor. -/
structure State.SameWindow (s : State) (m : Memory) : Prop where
  size : m.size = s.mem.size
  read : ∀ a, s.cursor ≤ a → a < s.cursor + 4 → m.read a = s.mem.read a

section Reframe

variable {s t : State} {l : List Entry} {m : Memory}

@[simp] theorem State.reframe_cursor : (s.reframe l m).cursor = s.cursor := rfl
@[simp] theorem State.reframe_driver : (s.reframe l m).driver = s.driver := rfl

@[simp] theorem State.setDriver_reframe (d : Driver) :
    (s.reframe l m).setDriver d = (s.setDriver d).reframe l m := rfl
@[simp] theorem State.advance_reframe (n : Nat) : (s.reframe l m).advance n = (s.advance n).reframe l m := rfl
@[simp] theorem State.setErr_reframe (e : ErrorRecord) :
    (s.reframe l m).setErr e = (s.setErr e).reframe l m := rfl
@[simp] theorem State.emit_reframe (r : DecodedRecord) : (s.reframe l m).emit r = (s.emit r).reframe l m := by
  simp [State.emit, State.reframe]

/-- The remaining count depends on the length alone (R80). -/
theorem State.SameWindow.remaining_eq (h : s.SameWindow m) : (s.reframe l m).remaining = s.remaining :=
  congrArg (· - s.cursor) h.size

/-- The four reads at the cursor stay. -/
theorem State.SameWindow.bufRead_eq (h : s.SameWindow m) {a : Nat} (hlo : s.cursor ≤ a)
    (hhi : a < s.cursor + 4) : (s.reframe l m).bufRead a = s.bufRead a :=
  h.read a hlo hhi

/-- The read of `b0` stays. -/
theorem State.SameWindow.bufRead_cursor (h : s.SameWindow m) :
    (s.reframe l m).bufRead s.cursor = s.bufRead s.cursor :=
  h.bufRead_eq (Nat.le_refl _) (by omega)

/-- Reads of several bytes stay when all of them are among the four at the cursor. -/
theorem State.SameWindow.readBytes_eq (h : s.SameWindow m) {off n : Nat} (hlo : s.cursor ≤ off)
    (hhi : off + n ≤ s.cursor + 4) : (s.reframe l m).readBytes off n = s.readBytes off n := by
  induction n generalizing off with
  | zero => rfl
  | succ n ih =>
    simp only [State.readBytes, h.bufRead_eq hlo (by omega), ih (off := off + 1) (by omega) (by omega)]

/-- Raising an error reads `b0` and no more (R118). -/
theorem State.SameWindow.raise_next (h : s.SameWindow m) {k : ErrKind} (hraise : raise k s = .next t) :
    raise k (s.reframe l m) = .next (t.reframe l m) := by
  obtain ⟨b, hb, rfl⟩ := Machine.raise_next hraise
  simpa using raise_of_read (h.bufRead_cursor.trans hb)

/-- The transition from `Start` reads `N` and `b0` (R84 to R86). -/
theorem State.SameWindow.startStep_next (h : s.SameWindow m) (hstart : startStep s = .next t) :
    startStep (s.reframe l m) = .next (t.reframe l m) := by
  unfold startStep
  rw [h.remaining_eq, State.reframe_cursor, h.bufRead_cursor]
  obtain ⟨h0, rfl⟩ | ⟨h1, hraise⟩ | ⟨h2, b0, hb, hclass⟩ := Machine.startStep_next hstart
  · simp [h0]
  · simp [h1, h.raise_next hraise]
  · have hne0 : s.remaining ≠ 0 := by omega
    have hne1 : s.remaining ≠ 1 := by omega
    obtain ⟨sel, hc, rfl⟩ | ⟨hc, hraise⟩ := hclass
    · simp [hne0, hne1, hb, hc]
    · simp [hne0, hne1, hb, hc, h.raise_next hraise]

end Reframe

/-- Reading one byte more reads the first and then the others (R49). -/
theorem State.readBytes_succ_eq_cons {s : State} {off n : Nat} {b : Byte} {bs : List Byte} :
    s.readBytes off (n + 1) = some (b :: bs) ↔ s.bufRead off = some b ∧ s.readBytes (off + 1) n = some bs := by
  simp only [State.readBytes]
  split <;> simp_all

/-- Where the bytes of one instruction stand at the cursor, `fetch` hands it on (R87). -/
theorem fetch_of_readBytes {s : State} {i : Instr} {bs : List Byte} (hfits : i.len ≤ s.remaining)
    (hread : s.readBytes s.cursor i.len = some bs) (hdec : decode bs = .ok i []) : fetch i.sel s = .run i := by
  obtain ⟨b0, b1, tl, rfl, hclass, hlen, -, -⟩ := decode_ok hdec
  obtain ⟨n, hn⟩ : ∃ n, i.len = n + 2 := ⟨i.len - 2, by have := i.len_bounds; omega⟩
  obtain ⟨h0, h1, -⟩ : s.bufRead s.cursor = some b0 ∧ s.bufRead (s.cursor + 1) = some b1 ∧ _ := by
    simpa only [hn, State.readBytes_succ_eq_cons] using hread
  simp [fetch, h0, h1, hclass, ← hlen, hfits, hread, hdec]

/-- Where the bytes of one instruction stand at the cursor, a step from `Dispatch` of its class emits it and
passes it (R87). -/
theorem step_of_readBytes {s : State} {i : Instr} {bs : List Byte} (hd : s.driver = .dispatch i.sel)
    (hfits : i.len ≤ s.remaining) (hread : s.readBytes s.cursor i.len = some bs)
    (hdec : decode bs = .ok i []) :
    step s = .next (((s.emit (recordOf s.cursor i)).advance i.len).setDriver .start) := by
  simp only [step, hd, fetch_of_readBytes hfits hread hdec, exec_eq]
  simpa using dispatchRecord_of_fits (r := recordOf s.cursor i) (by simpa using hd) (by simpa using hfits)

/-- Where the instruction at the cursor does not fit, a step from `Dispatch` of its class raises TRUNCATED
(R88). -/
theorem step_of_not_fits {s : State} {sel : Sel} {b0 b1 : Byte} (hd : s.driver = .dispatch sel)
    (h0 : s.bufRead s.cursor = some b0) (h1 : s.bufRead (s.cursor + 1) = some b1)
    (hclass : classify b0 = .known sel) (hlong : s.remaining < instrLen sel b0 b1) :
    step s = raise .truncated s := by
  simp [step, hd, fetch, h0, h1, hclass, Nat.not_le.mpr hlong]

/-- A step reads of the buffer its length and the four bytes at the cursor, and of the log nothing (R43, R49). -/
theorem State.SameWindow.step_next {s t : State} {m : Memory} (h : s.SameWindow m) (l : List Entry)
    (hstep : step s = .next t) : step (s.reframe l m) = .next (t.reframe l m) := by
  obtain ⟨hd, hstart⟩ | ⟨i, bs, hd, hfits, hread, hdec, rfl⟩ |
    ⟨sel, b0, b1, hd, h0, h1, hclass, hlong, hraise⟩ := Machine.step_next hstep
  · simpa only [step, State.reframe_driver, hd] using h.startStep_next hstart
  · have hwindow : s.cursor + i.len ≤ s.cursor + 4 := by have := i.len_bounds; omega
    simpa using step_of_readBytes (s := s.reframe l m) hd (h.remaining_eq ▸ hfits)
      ((h.readBytes_eq (Nat.le_refl _) hwindow).trans hread) hdec
  · have h1' : (s.reframe l m).bufRead (s.cursor + 1) = some b1 :=
      (h.bufRead_eq (by omega) (by omega)).trans h1
    rw [step_of_not_fits (s := s.reframe l m) hd (h.bufRead_cursor.trans h0) h1' hclass
      (h.remaining_eq ▸ hlong)]
    exact h.raise_next hraise

/-! ## A canonical buffer is its length and its reads -/

/-- What the canonical form says of a first cell and of the rest. -/
theorem cellsWf_cons {lo hi a : Nat} {b : Byte} {rest : List Host.Cell} :
    cellsWf lo hi ((a, b) :: rest) = true ↔
      (lo ≤ a ∧ a < hi ∧ b ≠ Memory.unlisted) ∧ cellsWf (a + 1) hi rest = true := by
  simp [cellsWf, and_assoc]

/-- Canonical cells list no address below the first one that the others, which read alike, list. -/
theorem cellsWf_head_le {lo lo' hi a a' : Nat} {b b' : Byte} {rest rest' : List Host.Cell}
    (h : cellsWf lo hi ((a, b) :: rest) = true) (h' : cellsWf lo' hi ((a', b') :: rest') = true)
    (hread : ∀ x < hi, cellAt x ((a, b) :: rest) = cellAt x ((a', b') :: rest')) : a' ≤ a := by
  obtain ⟨⟨-, hhi, hb⟩, -⟩ := cellsWf_cons.mp h
  obtain ⟨hhead', hrest'⟩ := cellsWf_cons.mp h'
  by_contra hlt
  have hfirst : cellsWf a' hi ((a', b') :: rest') = true := cellsWf_cons.mpr ⟨⟨Nat.le_refl _, hhead'.2⟩, hrest'⟩
  have hbyte : b = Memory.unlisted := calc
    b = cellAt a ((a, b) :: rest) := by simp [cellAt]
    _ = cellAt a ((a', b') :: rest') := hread a hhi
    _ = Memory.unlisted := cellAt_below (by omega) _ hfirst
  exact hb hbyte

/-- Canonical cells that read as no cells at all are none. -/
theorem cellsWf_eq_nil {lo hi : Nat} {cells : List Host.Cell} (h : cellsWf lo hi cells = true)
    (hread : ∀ x < hi, cellAt x cells = Memory.unlisted) : cells = [] := by
  cases cells with
  | nil => rfl
  | cons c rest =>
    obtain ⟨⟨-, hhi, hb⟩, -⟩ := cellsWf_cons.mp h
    exact absurd (by simpa [cellAt] using hread c.1 hhi) hb

/-- Canonical cells that read alike are the same cells. -/
theorem cellsWf_ext {lo hi : Nat} {cells cells' : List Host.Cell} (h : cellsWf lo hi cells = true)
    (h' : cellsWf lo hi cells' = true) (hread : ∀ x < hi, cellAt x cells = cellAt x cells') :
    cells = cells' := by
  induction cells generalizing lo cells' with
  | nil => exact (cellsWf_eq_nil h' fun x hx => (hread x hx).symm).symm
  | cons c rest ih =>
    cases cells' with
    | nil => exact cellsWf_eq_nil h hread
    | cons c' rest' =>
      obtain ⟨a, b⟩ := c
      obtain ⟨a', b'⟩ := c'
      obtain rfl : a = a' := Nat.le_antisymm (cellsWf_head_le h' h fun x hx => (hread x hx).symm)
        (cellsWf_head_le h h' hread)
      obtain ⟨⟨-, hhi, -⟩, hrest⟩ := cellsWf_cons.mp h
      obtain ⟨-, hrest'⟩ := cellsWf_cons.mp h'
      obtain rfl : b = b' := by simpa [cellAt] using hread a hhi
      have htail : ∀ x < hi, cellAt x rest = cellAt x rest' := by
        intro x hx
        by_cases hxa : x = a
        · rw [cellAt_below (by omega) _ hrest, cellAt_below (by omega) _ hrest']
        · simpa [cellAt, hxa] using hread x hx
      rw [ih hrest hrest' htail]

/-! ## The statements about the buffer and the log -/

/-- Settles O26: of the two outcomes, one appends the entry and one raises TRUNCATED. -/
theorem execFrame : Obligations.ExecFrame := by
  intro i s t hexec
  obtain ⟨hfits, rfl⟩ | ⟨hlong, b, hb, rfl⟩ := exec_next hexec
  · exact ⟨rfl, fun _ => rfl, .inl ⟨hfits, rfl, rfl, rfl, rfl⟩⟩
  · exact ⟨rfl, fun _ => rfl, .inr ⟨hlong, rfl, rfl, rfl, b, hb, rfl⟩⟩

/-- Settles O34: the step over the same buffer, which it does not write, with entries before the log. -/
theorem logNeverReadBack : Obligations.LogNeverReadBack := by
  intro s t l hstep
  have hsame : s.SameWindow s.mem := ⟨rfl, fun _ _ _ => rfl⟩
  have hmem : t.mem = s.mem := (Transition.of_step hstep).mem_eq
  simpa only [State.reframe, ← hmem] using hsame.step_next l hstep

/-- Settles O35: the step over another buffer that has the same four bytes at the cursor. -/
theorem stepReadsOnlyTheInstruction : Obligations.StepReadsOnlyTheInstruction :=
  fun _ _ _ hsize hread hstep => State.SameWindow.step_next ⟨hsize, hread⟩ [] hstep

/-- Settles O45, by the reads of bytes put behind a buffer's end. -/
theorem loadedBufferReads : Obligations.LoadedBufferReads := Memory.read_load

/-- Settles O46: equal reads below the common length make the canonical cells equal. -/
theorem canonicalBuffersAreEqualData : Obligations.CanonicalBuffersAreEqualData := by
  rintro ⟨size, cells⟩ ⟨size', cells'⟩ hwf hwf' hsize hread
  obtain rfl : size = size' := hsize
  have hcells : ∀ x < size, cellAt x cells = cellAt x cells' := by
    intro x hx
    simpa [Memory.read, hx] using hread x
  exact congrArg (Memory.mk size) (cellsWf_ext hwf hwf' hcells)

end Sys2Proof.Machine
end

section
/-! PROOFS. The encoding: the values and fields of R58 to R62 read back from the bytes that hold them and
the other way, the decoder's answer for each form, and which header bytes a row of the opcode table covers. -/

namespace Sys2Proof

open Laws.EncodedShape (classify_headRM classify_headIMM)

/-! ## Values and their bytes (R61, R62) -/

/-- A zero-extended byte keeps its value. -/
@[simp] theorem zext16_toNat (b : Byte) : (zext16 b).toNat = b.toNat := by
  simp only [zext16, BitVec.toNat_setWidth]
  omega

/-- The two bytes of a little-endian value share no bit: the high one stands before the low one. -/
theorem le16_eq_append (lo hi : Byte) : le16 lo hi = hi ++ lo := calc
  le16 lo hi = zext16 hi <<< 8 ||| zext16 lo := BitVec.or_comm _ _
  _ = (hi ++ lo).setWidth 16 := BitVec.setWidth_append_eq_shiftLeft_setWidth_or.symm
  _ = hi ++ lo := BitVec.setWidth_eq _

/-- The low byte counts once, the high byte 256 times. -/
theorem le16_toNat (lo hi : Byte) : (le16 lo hi).toNat = lo.toNat + 256 * hi.toNat := by
  rw [le16_eq_append, BitVec.toNat_append, ← Nat.shiftLeft_add_eq_or_of_lt lo.isLt, Nat.shiftLeft_eq]
  omega

/-- A zero-extended byte fits in a byte. -/
@[simp] theorem fitsByte_zext16 (b : Byte) : fitsByte (zext16 b) = true := by
  simp only [fitsByte, zext16_toNat, decide_eq_true_eq]
  omega

@[simp] theorem loByte_zext16 (b : Byte) : loByte (zext16 b) = b := calc
  loByte (zext16 b) = b.extractLsb' 0 8 := BitVec.extractLsb'_setWidth_of_le (by decide)
  _ = b := BitVec.extractLsb'_eq_self

@[simp] theorem loByte_le16 (lo hi : Byte) : loByte (le16 lo hi) = lo := by
  rw [le16_eq_append]
  exact BitVec.extractLsb'_append_eq_right

@[simp] theorem hiByte_le16 (lo hi : Byte) : hiByte (le16 lo hi) = hi := by
  rw [le16_eq_append]
  exact BitVec.extractLsb'_append_eq_left

/-- A value is its two bytes, little-endian. -/
@[simp] theorem le16_loByte_hiByte (v : Half) : le16 (loByte v) (hiByte v) = v := by
  rw [le16_eq_append]
  exact BitVec.extractLsb'_append_extractLsb'

/-- A value that fits in a byte is its low byte, zero-extended. -/
theorem zext16_loByte {v : Half} (h : fitsByte v = true) : zext16 (loByte v) = v := by
  apply BitVec.eq_of_toNat_eq
  simp only [fitsByte, decide_eq_true_eq] at h
  simp only [zext16_toNat, loByte, BitVec.extractLsb'_toNat]
  omega

/-! ## Three fields side by side -/

section Fields

variable {p m n : Nat}

/-- Two fields side by side are equal when each of them is. -/
theorem append_inj_iff {a a' : BitVec m} {b b' : BitVec n} : a ++ b = a' ++ b' ↔ a = a' ∧ b = b' := by
  constructor
  · intro h
    have hleft := congrArg (BitVec.extractLsb' n m) h
    have hright := congrArg (BitVec.extractLsb' 0 n) h
    rw [BitVec.extractLsb'_append_eq_left, BitVec.extractLsb'_append_eq_left] at hleft
    rw [BitVec.extractLsb'_append_eq_right, BitVec.extractLsb'_append_eq_right] at hright
    exact ⟨hleft, hright⟩
  · rintro ⟨rfl, rfl⟩
    rfl

variable (a : BitVec p) (b : BitVec m) (c : BitVec n) (x : BitVec (p + m + n))

theorem upperField_append : (a ++ b ++ c).extractLsb' (m + n) p = a := by
  rw [BitVec.extractLsb'_append_eq_of_le (by omega), Nat.add_sub_cancel, BitVec.extractLsb'_append_eq_left]

theorem middleField_append : (a ++ b ++ c).extractLsb' n m = b := by
  rw [BitVec.extractLsb'_append_eq_of_le (by omega), Nat.sub_self, BitVec.extractLsb'_append_eq_right]

theorem lowerField_append : (a ++ b ++ c).extractLsb' 0 n = c := BitVec.extractLsb'_append_eq_right

/-- A word is its three fields side by side. -/
theorem append_fields : x.extractLsb' (m + n) p ++ x.extractLsb' n m ++ x.extractLsb' 0 n = x := by
  rw [BitVec.extractLsb'_append_extractLsb'_eq_extractLsb' (by omega), BitVec.extractLsb'_append_extractLsb']

end Fields

/-! ## Fields and the bytes that hold them (R58, R60, R70) -/

/-- The fields of an RM header are the ones it was made of. -/
@[simp] theorem extract_headRM_modRM (d w : BitVec 1) (mod : BitVec 2) (reg rm : BitVec 3) :
    extract (headRM d w) (modRM mod reg rm) = ⟨0b100010#6, d, w, mod, reg, rm⟩ := by
  rw [extract, FieldSet.mk.injEq]
  exact ⟨upperField_append _ d w, middleField_append _ d w, lowerField_append _ d w,
    upperField_append mod reg rm, middleField_append mod reg rm, lowerField_append mod reg rm⟩

/-- The fields of an IMM head are the ones it was made of. -/
@[simp] theorem extractImm_headIMM (w : BitVec 1) (reg : BitVec 3) :
    extractImm (headIMM w reg) = ⟨0b1011#4, w, reg⟩ := by
  rw [extractImm, ImmFieldSet.mk.injEq]
  exact ⟨upperField_append _ w reg, middleField_append _ w reg, lowerField_append _ w reg⟩

/-- Class RM is the opcode field's value (R57). -/
theorem classify_eq_rm_iff (b0 : Byte) : classify b0 = .known .rm ↔ b0.extractLsb' 2 6 = 0b100010#6 := by
  unfold classify
  split
  · simp [*]
  · split <;> simp [*]

/-- Class IMM is the opcode field's value; the two patterns match no byte in common (R57). -/
theorem classify_eq_imm_iff (b0 : Byte) : classify b0 = .known .imm ↔ b0.extractLsb' 4 4 = 0b1011#4 := by
  unfold classify
  split
  · next hrm =>
    have htop : b0.extractLsb' 4 4 ++ b0.extractLsb' 2 2 = b0.extractLsb' 2 6 :=
      BitVec.extractLsb'_append_extractLsb'_eq_extractLsb' rfl
    have hne : b0.extractLsb' 4 4 ≠ 0b1011#4 := by
      obtain ⟨hfour, -⟩ := (append_inj_iff (a' := 0b1000#4) (b' := 0b10#2)).mp (htop.trans hrm)
      simp [hfour]
    simp [hne]
  · split <;> simp [*]

/-- The first byte of class RM is made of its fields. -/
theorem headRM_extract {b0 : Byte} (h : classify b0 = .known .rm) (b1 : Byte) :
    headRM (extract b0 b1).d (extract b0 b1).w = b0 := by
  rw [headRM, ← (classify_eq_rm_iff b0).mp h]
  exact append_fields (p := 6) (m := 1) (n := 1) b0

/-- The second byte of format RM is made of its fields. -/
theorem modRM_extract (b0 b1 : Byte) :
    modRM (extract b0 b1).mod (extract b0 b1).reg (extract b0 b1).rm = b1 :=
  append_fields (p := 2) (m := 3) (n := 3) b1

/-- The first byte of class IMM is made of its fields. -/
theorem headIMM_extractImm {b0 : Byte} (h : classify b0 = .known .imm) :
    headIMM (extractImm b0).wi (extractImm b0).regi = b0 := by
  rw [headIMM, ← (classify_eq_imm_iff b0).mp h]
  exact append_fields (p := 4) (m := 1) (n := 3) b0

/-! ## What the decoder answers for each form (R59 to R62) -/

section Forms

variable {b0 b1 : Byte} {f : FieldSet} {g : ImmFieldSet}

/-- A header of class RM goes to the decoder of format RM. -/
theorem decode_rm (h : classify b0 = .known .rm) (b1 : Byte) (tl : List Byte) :
    decode (b0 :: b1 :: tl) = decodeRM (extract b0 b1) tl := by
  simp [decode, h]

/-- A header of class IMM goes to the decoder of format IMM. -/
theorem decode_imm (h : classify b0 = .known .imm) (b1 : Byte) (tl : List Byte) :
    decode (b0 :: b1 :: tl) = decodeIMM (extractImm b0) b1 tl := by
  simp [decode, h]

theorem decodeRM_mod00 (h : f.mod = 0b00#2) (rest : List Byte) :
    decodeRM f rest = .ok (.movM0 f.d f.w f.reg f.rm) rest := by
  simp [decodeRM, h]

theorem decodeRM_mod01 (h : f.mod = 0b01#2) (b2 : Byte) (rest : List Byte) :
    decodeRM f (b2 :: rest) = .ok (.movM8 f.d f.w f.reg f.rm (zext16 b2)) rest := by
  simp [decodeRM, h]

theorem decodeRM_mod10 (h : f.mod = 0b10#2) (b2 b3 : Byte) (rest : List Byte) :
    decodeRM f (b2 :: b3 :: rest) = .ok (.movM16 f.d f.w f.reg f.rm (le16 b2 b3)) rest := by
  simp [decodeRM, h]

theorem decodeRM_mod11 (h : f.mod = 0b11#2) (rest : List Byte) :
    decodeRM f rest = .ok (.movRR f.d f.w f.reg f.rm) rest := by
  simp [decodeRM, h]

theorem decodeIMM_w0 (h : g.wi = 0#1) (b1 : Byte) (rest : List Byte) :
    decodeIMM g b1 rest = .ok (.movI8 g.regi (zext16 b1)) rest := by
  simp [decodeIMM, h]

theorem decodeIMM_w1 (h : g.wi = 1#1) (b1 b2 : Byte) (rest : List Byte) :
    decodeIMM g b1 (b2 :: rest) = .ok (.movI16 g.regi (le16 b1 b2)) rest := by
  simp [decodeIMM, h]

/-- An RM header made of its fields is decoded by them. -/
theorem decode_headRM (d w : BitVec 1) (mod : BitVec 2) (reg rm : BitVec 3) (tl : List Byte) :
    decode (headRM d w :: modRM mod reg rm :: tl) = decodeRM ⟨0b100010#6, d, w, mod, reg, rm⟩ tl := by
  rw [decode_rm (classify_headRM d w), extract_headRM_modRM]

/-- An IMM head made of its fields is decoded by them. -/
theorem decode_headIMM (w : BitVec 1) (reg : BitVec 3) (b1 : Byte) (tl : List Byte) :
    decode (headIMM w reg :: b1 :: tl) = decodeIMM ⟨0b1011#4, w, reg⟩ b1 tl := by
  rw [decode_imm (classify_headIMM w reg), extractImm_headIMM]

/-- What format RM's decoder answers is well-formed and encoded by the fields and the bytes it took. -/
theorem encode_of_decodeRM {tl rest : List Byte} {i : Instr} (h : decodeRM f tl = .ok i rest) :
    i.wf = true ∧ headRM f.d f.w :: modRM f.mod f.reg f.rm :: tl = encode i ++ rest := by
  obtain h0 | h1 | h2 | h3 : f.mod = 0b00#2 ∨ f.mod = 0b01#2 ∨ f.mod = 0b10#2 ∨ f.mod = 0b11#2 := by bv_omega
  · rw [decodeRM_mod00 h0] at h
    cases h
    simp [Instr.wf, encode, h0]
  · cases tl with
    | nil => simp [decodeRM, h1] at h
    | cons b2 tl =>
      rw [decodeRM_mod01 h1] at h
      cases h
      simp [Instr.wf, encode, h1]
  · match tl with
    | [] | [_] => simp [decodeRM, h2] at h
    | b2 :: b3 :: tl =>
      rw [decodeRM_mod10 h2] at h
      cases h
      simp [Instr.wf, encode, h2]
  · rw [decodeRM_mod11 h3] at h
    cases h
    simp [Instr.wf, encode, h3]

/-- What format IMM's decoder answers is well-formed and encoded by the fields and the bytes it took. -/
theorem encode_of_decodeIMM {tl rest : List Byte} {i : Instr} (h : decodeIMM g b1 tl = .ok i rest) :
    i.wf = true ∧ headIMM g.wi g.regi :: b1 :: tl = encode i ++ rest := by
  obtain h0 | h1 : g.wi = 0#1 ∨ g.wi = 1#1 := BitVec.eq_zero_or_eq_one g.wi
  · rw [decodeIMM_w0 h0] at h
    cases h
    simp [Instr.wf, encode, h0]
  · cases tl with
    | nil => simp [decodeIMM, h1] at h
    | cons b2 tl =>
      rw [decodeIMM_w1 h1] at h
      cases h
      simp [Instr.wf, encode, h1]

end Forms

/-! ## The header bytes a row of the table covers (R66) -/

/-- Under a mask of the `n` upper bits, a pattern tests the field that stands there and nothing else. -/
theorem and_upperMask_eq_iff {n k : Nat} (b : BitVec (n + k)) (p : BitVec n) :
    b &&& (BitVec.allOnes n ++ 0#k) = p ++ 0#k ↔ b.extractLsb' k n = p := by
  conv_lhs => rw [← BitVec.extractLsb'_append_extractLsb' (x := b), BitVec.and_append, append_inj_iff]
  simp

/-- A row covers a header when each of the two bytes meets its half of the mask and the pattern. -/
theorem OpcodeRow.covers_iff {row : OpcodeRow} {p0 p1 m0 m1 : Byte} (hmask : row.mask = m0 ++ m1)
    (hpattern : row.pattern = p0 ++ p1) (b0 b1 : Byte) :
    row.covers b0 b1 = true ↔ b0 &&& m0 = p0 ∧ b1 &&& m1 = p1 := calc
  _ ↔ (b0 ++ b1) &&& row.mask = row.pattern := decide_eq_true_iff
  _ ↔ b0 &&& m0 = p0 ∧ b1 &&& m1 = p1 := by rw [hmask, hpattern, BitVec.and_append, append_inj_iff]

/-- The row of format RM for a mode. -/
def rmRow (mod : BitVec 2) : OpcodeRow := opcodeTable[mod.toNat]'(Nat.lt_of_lt_of_le mod.isLt (by decide))

/-- The row of format IMM for a width. -/
def immRow (w : BitVec 1) : OpcodeRow := opcodeTable[4 + w.toNat]'(Nat.add_lt_add_left w.isLt 4)

theorem rmRow_mem (mod : BitVec 2) : rmRow mod ∈ opcodeTable := List.getElem_mem _

theorem immRow_mem (w : BitVec 1) : immRow w ∈ opcodeTable := List.getElem_mem _

/-- The table is the rows of the four modes and of the two widths. -/
theorem eq_rmRow_or_immRow_of_mem :
    ∀ row ∈ opcodeTable, (∃ mod, row = rmRow mod) ∨ ∃ w, row = immRow w := by
  decide

/-- The row of a mode covers the headers of class RM with that mode. -/
theorem covers_rmRow_iff (mod : BitVec 2) (b0 b1 : Byte) :
    (rmRow mod).covers b0 b1 = true ↔ classify b0 = .known .rm ∧ (extract b0 b1).mod = mod := by
  have hmask : (rmRow mod).mask = (BitVec.allOnes 6 ++ 0#2 : Byte) ++ (BitVec.allOnes 2 ++ 0#6 : Byte) := by
    revert mod; decide
  have hpattern : (rmRow mod).pattern = (0b100010#6 ++ 0#2 : Byte) ++ (mod ++ 0#6 : Byte) := by
    revert mod; decide
  rw [classify_eq_rm_iff, OpcodeRow.covers_iff hmask hpattern]
  exact and_congr (and_upperMask_eq_iff (k := 2) b0 _) (and_upperMask_eq_iff (k := 6) b1 mod)

/-- The row of a width covers the headers of class IMM with that width, whatever the second byte. -/
theorem covers_immRow_iff (w : BitVec 1) (b0 b1 : Byte) :
    (immRow w).covers b0 b1 = true ↔ classify b0 = .known .imm ∧ (extractImm b0).wi = w := by
  have hmask : (immRow w).mask = (BitVec.allOnes 5 ++ 0#3 : Byte) ++ 0#8 := by revert w; decide
  have hpattern : (immRow w).pattern = (0b1011#4 ++ w ++ 0#3 : Byte) ++ 0#8 := by revert w; decide
  have hfields : b0.extractLsb' 4 4 ++ b0.extractLsb' 3 1 = b0.extractLsb' 3 5 :=
    BitVec.extractLsb'_append_extractLsb'_eq_extractLsb' rfl
  rw [classify_eq_imm_iff]
  calc (immRow w).covers b0 b1 = true
    _ ↔ b0 &&& (BitVec.allOnes 5 ++ 0#3) = 0b1011#4 ++ w ++ 0#3 ∧ b1 &&& 0#8 = 0#8 :=
      OpcodeRow.covers_iff hmask hpattern b0 b1
    _ ↔ b0 &&& (BitVec.allOnes 5 ++ 0#3) = 0b1011#4 ++ w ++ 0#3 := and_iff_left BitVec.and_zero
    _ ↔ b0.extractLsb' 3 5 = 0b1011#4 ++ w := and_upperMask_eq_iff (k := 3) b0 _
    _ ↔ b0.extractLsb' 4 4 = 0b1011#4 ∧ b0.extractLsb' 3 1 = w := by rw [← hfields, append_inj_iff]

/-- The only row that covers a header is the one its class and its mode or width select. -/
theorem eq_row_of_covers {row : OpcodeRow} {b0 b1 : Byte} (hrow : row ∈ opcodeTable)
    (hcovers : row.covers b0 b1 = true) :
    (classify b0 = .known .rm ∧ row = rmRow (extract b0 b1).mod) ∨
    (classify b0 = .known .imm ∧ row = immRow (extractImm b0).wi) := by
  obtain ⟨mod, rfl⟩ | ⟨w, rfl⟩ := eq_rmRow_or_immRow_of_mem row hrow
  · obtain ⟨hclass, hmod⟩ := (covers_rmRow_iff mod b0 b1).mp hcovers
    exact .inl ⟨hclass, by rw [hmod]⟩
  · obtain ⟨hclass, hw⟩ := (covers_immRow_iff w b0 b1).mp hcovers
    exact .inr ⟨hclass, by rw [hw]⟩

/-- The row of the table an instruction is of. -/
def Instr.row : Instr → OpcodeRow
  | .movM0 _ _ _ _ => rmRow 0b00#2
  | .movM8 _ _ _ _ _ => rmRow 0b01#2
  | .movM16 _ _ _ _ _ => rmRow 0b10#2
  | .movRR _ _ _ _ => rmRow 0b11#2
  | .movI8 _ _ => immRow 0#1
  | .movI16 _ _ => immRow 1#1

theorem Instr.row_mem (i : Instr) : i.row ∈ opcodeTable := by
  cases i with
  | movM0 | movM8 | movM16 | movRR => exact rmRow_mem _
  | movI8 | movI16 => exact immRow_mem _

@[simp] theorem Instr.row_mnemonic (i : Instr) : i.row.mnemonic = i.mnemonic := by cases i <;> rfl

@[simp] theorem Instr.row_len (i : Instr) : i.row.len = i.len := by cases i <;> rfl

/-- An instruction's row covers the header bytes of its encoding. -/
theorem Instr.row_covers_encode {i : Instr} {b0 b1 : Byte} {tl rest : List Byte}
    (h : b0 :: b1 :: tl = encode i ++ rest) : i.row.covers b0 b1 = true := by
  have hrm : ∀ d w mod reg rm, (rmRow mod).covers (headRM d w) (modRM mod reg rm) = true :=
    fun d w mod reg rm => (covers_rmRow_iff _ _ _).mpr ⟨classify_headRM d w, by simp⟩
  have himm : ∀ w reg b1, (immRow w).covers (headIMM w reg) b1 = true :=
    fun w reg b1 => (covers_immRow_iff _ _ _).mpr ⟨classify_headIMM w reg, by simp⟩
  cases i with
  | movM0 | movM8 | movM16 | movRR => cases h; exact hrm _ _ _ _ _
  | movI8 | movI16 => cases h; exact himm _ _ _

/-! ## The statements about the encoding -/

/-- Settles O1: each encoding's header selects its own form, and the value comes back from its bytes. -/
theorem decodeOfEncodedInstruction : Obligations.DecodeOfEncodedInstruction := by
  intro i rest hwf
  cases i with
  | movM0 => simp [encode, decode_headRM, decodeRM_mod00]
  | movM8 => simp [encode, decode_headRM, decodeRM_mod01, zext16_loByte hwf]
  | movM16 => simp [encode, decode_headRM, decodeRM_mod10]
  | movRR => simp [encode, decode_headRM, decodeRM_mod11]
  | movI8 => simp [encode, decode_headIMM, decodeIMM_w0, zext16_loByte hwf]
  | movI16 => simp [encode, decode_headIMM, decodeIMM_w1]

/-- Settles O2: the header of a known class is made of its fields, and its form's decoder drops no bit. -/
theorem encodeOfDecodedBytes : Obligations.EncodeOfDecodedBytes := by
  intro bs rest i hdec
  obtain ⟨b0, b1, tl, rfl, hclass, -⟩ := decode_ok hdec
  cases hsel : i.sel with
  | rm =>
    rw [hsel] at hclass
    rw [decode_rm hclass] at hdec
    simpa only [headRM_extract hclass, modRM_extract] using encode_of_decodeRM hdec
  | imm =>
    rw [hsel] at hclass
    rw [decode_imm hclass] at hdec
    simpa only [headIMM_extractImm hclass] using encode_of_decodeIMM hdec

/-- Settles O4: a row covers the headers of one class and one mode or width. -/
theorem opcodeRowsDisjointAndExact : Obligations.OpcodeRowsDisjointAndExact := by
  refine fun b0 b1 => ⟨⟨?_, fun hknown => ?_⟩, fun row hrow row' hrow' hcovers hcovers' => ?_⟩
  · rintro ⟨row, hrow, hcovers⟩
    obtain ⟨hclass, -⟩ | ⟨hclass, -⟩ := eq_row_of_covers hrow hcovers <;> simp [hclass]
  · cases hclass : classify b0 with
    | unknown => exact absurd hclass hknown
    | known sel =>
      cases sel with
      | rm => exact ⟨_, rmRow_mem _, (covers_rmRow_iff _ b0 b1).mpr ⟨hclass, rfl⟩⟩
      | imm => exact ⟨_, immRow_mem _, (covers_immRow_iff _ b0 b1).mpr ⟨hclass, rfl⟩⟩
  · obtain ⟨hclass, hsel⟩ | ⟨hclass, hsel⟩ := eq_row_of_covers hrow hcovers <;>
      obtain ⟨hclass', hsel'⟩ | ⟨hclass', hsel'⟩ := eq_row_of_covers hrow' hcovers'
    · exact hsel.trans hsel'.symm
    · cases hclass.symm.trans hclass'
    · cases hclass.symm.trans hclass'
    · exact hsel.trans hsel'.symm

/-- Settles O5: the bytes consumed are the instruction's encoding, whose header its own row covers. -/
theorem decodedInstructionIsOfItsRow : Obligations.DecodedInstructionIsOfItsRow := by
  intro b0 b1 tl rest i hdec
  obtain ⟨-, -, -, -, -, -, hconsumed, -⟩ := decode_ok hdec
  have hcovers : i.row.covers b0 b1 = true := Instr.row_covers_encode (encodeOfDecodedBytes _ _ _ hdec).2
  exact ⟨i.row, i.row_mem, hcovers, i.row_mnemonic, i.row_len, by simpa using hconsumed.symm⟩

/-- Settles O8: the four modes of format RM. -/
theorem displacementAssembly : Obligations.DisplacementAssembly := by
  intro b0 b1 hclass
  simp only [decode_rm hclass]
  exact ⟨fun hmod b2 rest => ⟨zext16 b2, decodeRM_mod01 hmod b2 rest, zext16_toNat b2⟩,
    fun hmod b2 b3 rest => ⟨le16 b2 b3, decodeRM_mod10 hmod b2 b3 rest, le16_toNat b2 b3⟩,
    decodeRM_mod00, decodeRM_mod11⟩

/-- Settles O9: the two widths of format IMM. -/
theorem immediateAssembly : Obligations.ImmediateAssembly := by
  intro b0 b1 hclass
  simp only [decode_imm hclass]
  exact ⟨fun hw rest => ⟨zext16 b1, decodeIMM_w0 hw b1 rest, zext16_toNat b1⟩,
    fun hw b2 rest => ⟨le16 b1 b2, decodeIMM_w1 hw b1 b2 rest, le16_toNat b1 b2⟩⟩

/-- Settles O10: six closed words. -/
theorem specWordsDecode : Obligations.SpecWordsDecode := by
  unfold Obligations.SpecWordsDecode
  decide

end Sys2Proof
end

section
/-! PROOFS. The classifier, the length function and the register form (R77, R78, R95), and the transitions of
the Decode Driver one by one (R84 to R89). -/

namespace Sys2Proof

/-! ## The dispatch mux and the register form -/

@[simp] theorem encode_length (i : Instr) : (encode i).length = i.len := by cases i <;> rfl

/-- R95 writes the same two bytes with shifts and ors as R58 does with fields side by side. -/
theorem encodeRR_eq (d w : BitVec 1) (reg rm : BitVec 3) :
    encodeRR d w reg rm = [headRM d w, modRM 0b11#2 reg rm] := by
  have hhead : 0x88#8 ||| (d.setWidth 8 <<< 1) ||| w.setWidth 8 = headRM d w := by revert d w; decide
  have hmod : 0xC0#8 ||| (reg.setWidth 8 <<< 3) ||| rm.setWidth 8 = modRM 0b11#2 reg rm := by
    revert reg rm; decide
  rw [encodeRR, hhead, hmod]

/-- R79: both header bytes are always part of the instruction. -/
theorem two_le_instrLen (sel : Sel) (b0 b1 : Byte) : 2 ≤ instrLen sel b0 b1 := by
  cases sel <;> simp only [instrLen] <;> omega

/-- Settles O3: the fields go back to the places they were read from. -/
theorem registerFormRoundTrip : Obligations.RegisterFormRoundTrip := by
  intro b0 b1 hclass hmod
  rw [encodeRR_eq, ← hmod, headRM_extract hclass, modRM_extract]

/-- Settles O6: each known class is the value of its opcode field. -/
theorem classifierOfFirstByte : Obligations.ClassifierOfFirstByte := by
  refine fun b0 => ⟨(classify_eq_rm_iff b0).mpr, (classify_eq_imm_iff b0).mpr, ?_, ?_⟩
  · intro hrm himm
    rw [classify, if_neg hrm, if_neg himm]
  · rintro ⟨hrm, himm⟩
    cases ((classify_eq_rm_iff b0).mpr hrm).symm.trans ((classify_eq_imm_iff b0).mpr himm)

/-- Settles O7: the four modes of format RM; format IMM does not look at the second byte. -/
theorem lengthFunction : Obligations.LengthFunction := by
  intro b0 b1
  refine ⟨?_, ?_, ?_, ?_, rfl, fun _ => rfl⟩ <;> intro hmod <;> simp [instrLen, extract, hmod]

/-- The headers whose instruction is longer than the two or more bytes at hand (R115). -/
theorem long_header_cases {sel : Sel} {b0 b1 : Byte} {n : Nat} (htwo : 2 ≤ n) (hlong : n < instrLen sel b0 b1) :
    (sel = .rm ∧ b1.extractLsb' 6 2 = 0b01#2 ∧ n = 2) ∨
    (sel = .rm ∧ b1.extractLsb' 6 2 = 0b10#2 ∧ (n = 2 ∨ n = 3)) ∨
    (sel = .imm ∧ b0.extractLsb' 3 1 = 1#1 ∧ n = 2) := by
  obtain ⟨hlen00, hlen01, hlen10, hlen11, hlenImm, -⟩ := lengthFunction b0 b1
  cases sel with
  | rm =>
    obtain h | h | h | h : b1.extractLsb' 6 2 = 0b00#2 ∨ b1.extractLsb' 6 2 = 0b01#2 ∨
        b1.extractLsb' 6 2 = 0b10#2 ∨ b1.extractLsb' 6 2 = 0b11#2 := by bv_omega
    · have := hlen00 h
      omega
    · have := hlen01 h
      exact .inl ⟨rfl, h, by omega⟩
    · have := hlen10 h
      exact .inr (.inl ⟨rfl, h, by omega⟩)
    · have := hlen11 h
      omega
  | imm =>
    obtain h | h := BitVec.eq_zero_or_eq_one (b0.extractLsb' 3 1)
    · simp only [hlenImm, h, BitVec.toNat_zero] at hlong
      omega
    · simp only [hlenImm, h, BitVec.toNat_one Nat.one_pos] at hlong
      exact .inr (.inr ⟨rfl, h, by omega⟩)

end Sys2Proof

namespace Sys2Proof.Machine

variable {s t : State} {sel : Sel} {b0 b1 : Byte}

/-! ## Reads at the cursor -/

/-- Where a byte remains, the byte at the cursor is read. -/
theorem State.bufRead_cursor_of_remaining (h : 0 < s.remaining) : ∃ b, s.bufRead s.cursor = some b := by
  simp only [State.remaining] at h
  exact State.bufRead_of_lt (by omega)

/-- Reading some bytes and those behind them is reading them all. -/
theorem State.readBytes_append {off n : Nat} {xs ys : List Byte} :
    s.readBytes off (xs.length + n) = some (xs ++ ys) ↔
      s.readBytes off xs.length = some xs ∧ s.readBytes (off + xs.length) n = some ys := by
  induction xs generalizing off with
  | nil => simp [State.readBytes]
  | cons x xs ih =>
    simp only [List.length_cons, List.cons_append, Nat.add_right_comm xs.length 1 n,
      State.readBytes_succ_eq_cons, ih, and_assoc, Nat.add_assoc off 1, Nat.add_comm 1]

/-- What the header of an instruction read at the cursor says of it. -/
theorem header_of_readBytes {i : Instr} {bs : List Byte} (hread : s.readBytes s.cursor i.len = some bs)
    (hdec : decode bs = .ok i []) :
    ∃ b0 b1, s.bufRead s.cursor = some b0 ∧ s.bufRead (s.cursor + 1) = some b1 ∧
      classify b0 = .known i.sel ∧ i.len = instrLen i.sel b0 b1 := by
  obtain ⟨b0, b1, tl, rfl, hclass, hlen, -, -⟩ := decode_ok hdec
  obtain ⟨n, hn⟩ : ∃ n, i.len = n + 2 := ⟨i.len - 2, by have := i.len_bounds; omega⟩
  obtain ⟨h0, h1, -⟩ : s.bufRead s.cursor = some b0 ∧ s.bufRead (s.cursor + 1) = some b1 ∧ _ := by
    simpa only [hn, State.readBytes_succ_eq_cons] using hread
  exact ⟨b0, b1, h0, h1, hclass, hlen⟩

/-- Where the bytes at the cursor begin with an instruction, exactly its bytes can be read, and it fits. -/
theorem readBytes_of_decode {n : Nat} {bs rest : List Byte} {i : Instr}
    (hread : s.readBytes s.cursor n = some bs) (hdec : decode bs = .ok i rest) :
    s.readBytes s.cursor i.len = some (encode i) ∧ decode (encode i) = .ok i [] ∧ i.len ≤ s.remaining := by
  obtain ⟨hwf, rfl⟩ := encodeOfDecodedBytes _ _ _ hdec
  have hself : decode (encode i) = .ok i [] := by simpa using decodeOfEncodedInstruction i [] hwf
  have hpos := i.len_bounds
  obtain rfl : (encode i).length + rest.length = n := by
    simpa using (State.le_size_of_readBytes hread).1
  obtain ⟨hown, -⟩ := State.readBytes_append.mp hread
  rw [encode_length] at hown
  have hend := (State.le_size_of_readBytes hown).2 (by omega)
  exact ⟨hown, hself, (State.le_remaining_iff (by omega)).mpr hend⟩

/-- A header of a known class whose length fits begins an instruction of that class and length. -/
theorem exists_instr_of_header (h0 : s.bufRead s.cursor = some b0) (h1 : s.bufRead (s.cursor + 1) = some b1)
    (hclass : classify b0 = .known sel) (hfits : instrLen sel b0 b1 ≤ s.remaining) :
    ∃ bs i, s.readBytes s.cursor i.len = some bs ∧ decode bs = .ok i [] ∧ i.sel = sel ∧
      i.len = instrLen sel b0 b1 := by
  have htwo := two_le_instrLen sel b0 b1
  obtain ⟨n, hn⟩ : ∃ n, instrLen sel b0 b1 = n + 2 := ⟨instrLen sel b0 b1 - 2, by omega⟩
  have hend := (State.le_remaining_iff (by omega)).mp hfits
  obtain ⟨tl, htl, hlen⟩ := State.readBytes_of_le (s := s) (off := s.cursor + 1 + 1) (n := n) (by omega)
  obtain ⟨i, rest, hdec⟩ := decode_of_fits (b1 := b1) (tl := tl) hclass (by omega)
  obtain ⟨c0, c1, tl', hbytes, hclass', hlen', htotal, -⟩ := decode_ok hdec
  cases hbytes
  obtain rfl : sel = i.sel := by simpa using hclass.symm.trans hclass'
  obtain rfl : rest = [] := List.eq_nil_of_length_eq_zero (by simp only [List.length_cons] at htotal; omega)
  refine ⟨b0 :: b1 :: tl, i, ?_, hdec, rfl, hlen'⟩
  rw [hlen', hn]
  exact State.readBytes_succ_eq_cons.mpr ⟨h0, State.readBytes_succ_eq_cons.mpr ⟨h1, htl⟩⟩

/-! ## The transitions, one by one -/

/-- R84. -/
theorem step_start_empty (hd : s.driver = .start) (h : s.remaining = 0) :
    step s = .next (s.setDriver .done) := by
  simp [step, hd, startStep, h]

/-- R86, the trailing byte. -/
theorem step_start_lone (hd : s.driver = .start) (h : s.remaining = 1) : step s = raise .truncated s := by
  simp [step, hd, startStep, h]

/-- R85. -/
theorem step_start_known (hd : s.driver = .start) (htwo : 2 ≤ s.remaining) (h0 : s.bufRead s.cursor = some b0)
    (hclass : classify b0 = .known sel) : step s = .next (s.setDriver (.dispatch sel)) := by
  have hne0 : s.remaining ≠ 0 := by omega
  have hne1 : s.remaining ≠ 1 := by omega
  simp [step, hd, startStep, hne0, hne1, h0, hclass]

/-- R86, the unknown opcode. -/
theorem step_start_unknown (hd : s.driver = .start) (htwo : 2 ≤ s.remaining)
    (h0 : s.bufRead s.cursor = some b0) (hclass : classify b0 = .unknown) :
    step s = raise .unknownOpcode s := by
  have hne0 : s.remaining ≠ 0 := by omega
  have hne1 : s.remaining ≠ 1 := by omega
  simp [step, hd, startStep, hne0, hne1, h0, hclass]

/-- R89: no step from `Done` or `Error`. -/
theorem step_terminal (h : s.driver = .done ∨ s.driver = .error) : step s ≠ .next t := by
  obtain hd | hd := h <;> simp [step, hd]

/-- Every state in `Start` has a transition (R94). -/
theorem exists_step_of_start (hd : s.driver = .start) : ∃ t, step s = .next t := by
  obtain h | h | h : s.remaining = 0 ∨ s.remaining = 1 ∨ 2 ≤ s.remaining := by omega
  · exact ⟨_, step_start_empty hd h⟩
  · obtain ⟨b, hb⟩ := State.bufRead_cursor_of_remaining (s := s) (by omega)
    exact ⟨_, (step_start_lone hd h).trans (raise_of_read hb)⟩
  · obtain ⟨b, hb⟩ := State.bufRead_cursor_of_remaining (s := s) (by omega)
    cases hclass : classify b with
    | known sel => exact ⟨_, step_start_known hd h hb hclass⟩
    | unknown => exact ⟨_, (step_start_unknown hd h hb hclass).trans (raise_of_read hb)⟩

/-- Every state in `Dispatch` that `Start` can leave has a transition (R94, R142). -/
theorem exists_step_of_dispatch (hd : s.driver = .dispatch sel) (htwo : 2 ≤ s.remaining)
    (h0 : s.bufRead s.cursor = some b0) (hclass : classify b0 = .known sel) : ∃ t, step s = .next t := by
  obtain ⟨b1, h1⟩ : ∃ b1, s.bufRead (s.cursor + 1) = some b1 := by
    simp only [State.remaining] at htwo
    exact State.bufRead_of_lt (by omega)
  by_cases hfits : instrLen sel b0 b1 ≤ s.remaining
  · obtain ⟨bs, i, hread, hdec, rfl, hlen⟩ := exists_instr_of_header h0 h1 hclass hfits
    exact ⟨_, step_of_readBytes hd (hlen ▸ hfits) hread hdec⟩
  · exact ⟨_, (step_of_not_fits hd h0 h1 hclass (by omega)).trans (raise_of_read h0)⟩

/-- R15, R82: in a register that holds `N`, the addition of a length that fits does not wrap. -/
theorem toNat_ofNat_add_of_le {w a b n : Nat} (hsum : a + b ≤ n) (hwidth : n ≤ 2 ^ w - 1) :
    (BitVec.ofNat w a + BitVec.ofNat w b).toNat = a + b := by
  have hpos : 0 < 2 ^ w := Nat.two_pow_pos w
  rw [← BitVec.ofNat_add, BitVec.toNat_ofNat, Nat.mod_eq_of_lt (by omega)]

/-! ## The statements about single transitions -/

/-- Settles O12, by the transition of R84. -/
theorem startWithNoBytesEndsInDone : Obligations.StartWithNoBytesEndsInDone :=
  fun _ hd hempty => step_start_empty hd hempty

/-- Settles O13, by the transition of R85. -/
theorem startDispatchesKnownOpcode : Obligations.StartDispatchesKnownOpcode :=
  fun _ _ _ hd htwo h0 hclass => step_start_known hd htwo h0 hclass

/-- Settles O14: the byte an error names is the one at the cursor. -/
theorem startErrors : Obligations.StartErrors := by
  refine fun s hd => ⟨fun hlone => ?_, fun htwo b0 h0 hclass => ?_⟩
  · obtain ⟨b, hb⟩ := State.bufRead_cursor_of_remaining (s := s) (by omega)
    exact ⟨b, hb, (step_start_lone hd hlone).trans (raise_of_read hb)⟩
  · exact (step_start_unknown hd htwo h0 hclass).trans (raise_of_read h0)

/-- Settles O15: the header begins an instruction that fits, and the step emits it. -/
theorem dispatchEmitsAndAdvances : Obligations.DispatchEmitsAndAdvances := by
  intro s sel b0 b1 hd h0 h1 hclass hfits
  obtain ⟨bs, i, hread, hdec, rfl, hlen⟩ := exists_instr_of_header h0 h1 hclass hfits
  rw [← hlen] at hfits ⊢
  exact ⟨bs, i, hread, hdec, rfl, recordOf_len _ _, step_of_readBytes hd hfits hread hdec⟩

/-- Settles O16: the length test fails, and the byte raised is the header's first. -/
theorem dispatchTruncated : Obligations.DispatchTruncated :=
  fun _ _ _ _ hd h0 h1 hclass hlong => (step_of_not_fits hd h0 h1 hclass hlong).trans (raise_of_read h0)

/-- Settles O17: `Start` reads the first byte of the instruction, `Dispatch` fetches all of it. -/
theorem stepRunsDecodedInstruction : Obligations.StepRunsDecodedInstruction := by
  intro s n bs rest i hread hdec
  obtain ⟨hread, hdec, hfits⟩ := readBytes_of_decode hread hdec
  obtain ⟨b0, b1, h0, -, hclass, -⟩ := header_of_readBytes hread hdec
  have htwo : 2 ≤ s.remaining := i.len_bounds.1.trans hfits
  refine ⟨fun hd => step_start_known hd htwo h0 hclass, fun hd => ?_⟩
  simp only [step, hd, fetch_of_readBytes hfits hread hdec]

/-- Settles O25: an error from `Dispatch` is the length test's, in the step as in exec. -/
theorem onlyLongRowsTruncate : Obligations.OnlyLongRowsTruncate := by
  refine ⟨fun s t sel b0 b1 hd htwo h0 h1 hstep herror => ?_, fun i s t htwo hexec herror => ?_⟩
  · obtain ⟨hstart, -⟩ | ⟨i, bs, -, -, -, -, rfl⟩ | ⟨sel', c0, c1, hd', h0', h1', hclass, hlong, hraise⟩ :=
      step_next hstep
    · cases hd.symm.trans hstart
    · cases herror
    · obtain rfl : sel = sel' := by simpa using hd.symm.trans hd'
      obtain rfl : b0 = c0 := Option.some.inj (h0.symm.trans h0')
      obtain rfl : b1 = c1 := Option.some.inj (h1.symm.trans h1')
      rw [raise_of_read h0] at hraise
      cases hraise
      exact ⟨hclass, rfl, long_header_cases htwo hlong⟩
  · obtain ⟨-, rfl⟩ | ⟨hlong, -⟩ := exec_next hexec
    · cases herror
    · have hrem : s.remaining < i.len := by simp only [State.remaining] at htwo ⊢; omega
      cases i with
      | movM0 | movRR | movI8 => exact absurd hrem (Nat.not_lt.mpr htwo)
      | movM8 =>
        simp only [Instr.len] at hrem
        exact .inl ⟨rfl, by omega⟩
      | movM16 =>
        simp only [Instr.len] at hrem
        exact .inr (.inl ⟨rfl, by omega⟩)
      | movI16 =>
        simp only [Instr.len] at hrem
        exact .inr (.inr ⟨rfl, by omega⟩)

/-- Settles O29: of the four outcomes only the emitting one moves the cursor. -/
theorem cursorAdvance : Obligations.CursorAdvance := by
  intro s t hstep
  cases Transition.of_step hstep with
  | finished => exact .inl rfl
  | classified => exact .inl rfl
  | failed => exact .inl rfl
  | @emitted i _ dispatch fits read decoded =>
    obtain ⟨b0, b1, h0, h1, -, hlen⟩ := header_of_readBytes read decoded
    have hend : s.cursor + i.len ≤ s.mem.size :=
      (State.le_remaining_iff (Nat.lt_of_lt_of_le Nat.two_pos i.len_bounds.1)).mp fits
    rw [hlen] at fits hend
    refine .inr ⟨i.sel, b0, b1, dispatch, rfl, h0, h1, fits, by simp [hlen], by simpa [hlen] using hend, ?_⟩
    intro c hadmits
    simpa [hlen] using toNat_ofNat_add_of_le hend hadmits

/-- Settles O31, by R89. -/
theorem terminalStatesAreFinal : Obligations.TerminalStatesAreFinal := fun _ _ => step_terminal

/-- Settles O32: the invariant gives a state in `Dispatch` what its transition needs. -/
theorem progressOutsideTerminalStates : Obligations.ProgressOutsideTerminalStates := by
  intro s hinv
  constructor
  · rintro ⟨t, hstep⟩
    exact ⟨fun hd => step_terminal (.inl hd) hstep, fun hd => step_terminal (.inr hd) hstep⟩
  · rintro ⟨hdone, herror⟩
    cases hd : s.driver with
    | start => exact exists_step_of_start hd
    | dispatch sel =>
      have hok := hinv.driverOk
      simp only [driverConsistent, hd] at hok
      obtain ⟨-, htwo, b0, h0, hclass⟩ := hok
      exact exists_step_of_dispatch hd htwo h0 hclass
    | done => exact absurd hd hdone
    | error => exact absurd hd herror

/-- Settles O33: only the classifying outcome ends in `Dispatch`. -/
theorem dispatchFollowsStart : Obligations.DispatchFollowsStart := by
  intro s t sel hstep hdispatch
  cases Transition.of_step hstep with
  | finished => cases hdispatch
  | emitted => cases hdispatch
  | failed => cases hdispatch
  | classified start two read known =>
    cases hdispatch
    exact ⟨start, rfl, two, _, read, known⟩

end Sys2Proof.Machine
end

section
/-! PROOFS. Whole sessions: every byte list is encoded instructions and bytes that begin none, a session passes the
instructions in two steps each, and stops where the decoder refuses the rest (R83, R84 to R91). -/

namespace Sys2Proof

/-! ## Encodings and refusals -/

/-- Encodings are at least two bytes each (R79). -/
theorem two_mul_length_le (is : List Instr) : 2 * is.length ≤ (is.flatMap encode).length := by
  induction is with
  | nil => simp
  | cons i is ih =>
    have := i.len_bounds
    simp only [List.length_cons, List.flatMap_cons, List.length_append, encode_length]
    omega

/-- Format RM's decoder refuses only for want of bytes. -/
theorem decodeRM_refused {f : FieldSet} {tl : List Byte} {e : DecodeError} (h : decodeRM f tl = .refused e) :
    e = .truncated := by
  unfold decodeRM at h
  split at h
  · cases h
  · split at h
    · split at h
      · cases h
      · exact (Decoded.refused.inj h).symm
    · split at h
      · split at h
        · cases h
        · exact (Decoded.refused.inj h).symm
      · cases h

/-- Format IMM's decoder refuses only for want of bytes. -/
theorem decodeIMM_refused {g : ImmFieldSet} {b1 : Byte} {tl : List Byte} {e : DecodeError}
    (h : decodeIMM g b1 tl = .refused e) : e = .truncated := by
  unfold decodeIMM at h
  split at h
  · split at h
    · cases h
    · exact (Decoded.refused.inj h).symm
  · cases h

/-- Why the decoder refuses two bytes or more: an unknown first byte, or a length they do not reach (R123). -/
theorem decode_two_refused {b0 b1 : Byte} {tl : List Byte} {e : DecodeError}
    (h : decode (b0 :: b1 :: tl) = .refused e) :
    (classify b0 = .unknown ∧ e = .unknownOpcode b0) ∨
    ∃ sel, classify b0 = .known sel ∧ tl.length + 2 < instrLen sel b0 b1 ∧ e = .truncated := by
  cases hclass : classify b0 with
  | unknown => exact .inl ⟨rfl, by simpa [decode, hclass] using h.symm⟩
  | known sel =>
    refine .inr ⟨sel, rfl, ?_, ?_⟩
    · by_contra hfits
      obtain ⟨i, rest, hok⟩ := decode_of_fits (b1 := b1) (tl := tl) hclass (by omega)
      cases h.symm.trans hok
    · cases sel with
      | rm => exact decodeRM_refused ((decode_rm hclass b1 tl).symm.trans h)
      | imm => exact decodeIMM_refused ((decode_imm hclass b1 tl).symm.trans h)

/-- Only the empty list is refused as having no bytes (R84). -/
theorem eq_nil_of_decode_noBytes {bs : List Byte} (h : decode bs = .refused .noBytes) : bs = [] := by
  match bs with
  | [] => rfl
  | [b] => simp [decode] at h
  | b0 :: b1 :: tl => obtain ⟨-, he⟩ | ⟨_, -, -, he⟩ := decode_two_refused h <;> cases he

end Sys2Proof

namespace Sys2Proof.Machine

/-! ## A byte list read from the front -/

/-- `bs` is the encodings of the instructions `is`, and then `rest`, which the decoder refuses by the name `e`. -/
structure Reading (bs : List Byte) (is : List Instr) (rest : List Byte) (e : DecodeError) : Prop where
  wf : ∀ i ∈ is, i.wf = true
  bytes : bs = is.flatMap encode ++ rest
  refused : decode rest = .refused e

/-- Every byte list has a reading: decode until the decoder refuses. -/
theorem exists_reading (bs : List Byte) : ∃ is rest e, Reading bs is rest e := by
  cases hdec : decode bs with
  | refused e => exact ⟨[], bs, e, by simp, rfl, hdec⟩
  | ok i tl =>
    obtain ⟨hwf, hbytes⟩ := encodeOfDecodedBytes _ _ _ hdec
    have hshorter : tl.length < bs.length := by
      have := i.len_bounds
      simp only [hbytes, List.length_append, encode_length]
      omega
    obtain ⟨is, rest, e, h⟩ := exists_reading tl
    exact ⟨i :: is, rest, e, by simpa using ⟨hwf, h.wf⟩, by simp [hbytes, h.bytes], h.refused⟩
termination_by bs.length

/-- A reading of a list of encodings is complete. -/
theorem Reading.of_encodings {is : List Instr} (h : ∀ i ∈ is, i.wf = true) :
    Reading (is.flatMap encode) is [] .noBytes :=
  ⟨h, by simp, rfl⟩

/-- The instructions and the rest together are no longer than the bytes. -/
theorem Reading.length_le {bs rest : List Byte} {is : List Instr} {e : DecodeError} (h : Reading bs is rest e) :
    2 * is.length + rest.length ≤ bs.length := by
  have := two_mul_length_le is
  simp only [h.bytes, List.length_append]
  omega

variable {s t : State} {bs rest : List Byte} {is : List Instr} {e : DecodeError}

/-! ## Runs of several steps -/

/-- A run of `m + n` steps is a run of `m` and then one of `n`. -/
theorem steps_add (m n : Nat) (s : State) : steps (m + n) s = (steps m s).bind (steps n) := by
  induction m generalizing s with
  | zero => simp [steps]
  | succ m ih =>
    rw [Nat.add_right_comm]
    simp only [steps]
    cases step s with
    | next u => exact ih u
    | fault => rfl
    | refused => rfl

/-- One step is a run of one. -/
theorem steps_one (h : step s = .next t) : steps 1 s = some t := by simp [steps, h]

/-- Runs one behind the other are one run. -/
theorem steps_trans {m n : Nat} {u : State} (hm : steps m s = some u) (hn : steps n u = some t) :
    steps (m + n) s = some t := by
  simp [steps_add, hm, hn]

/-- A run from a terminal state takes no step (R89). -/
theorem steps_terminal {n : Nat} (hs : s.terminal = true) (h : steps n s = some t) : t = s := by
  cases n with
  | zero => exact (Option.some.inj h).symm
  | succ n =>
    have hd : s.driver = .done ∨ s.driver = .error := by simpa [State.terminal] using hs
    unfold steps at h
    split at h
    · next hstep => exact absurd hstep (step_terminal hd)
    · cases h
    · cases h

/-- A run has at most one terminal state: the step is a function, and none leaves a terminal state (R89, R94). -/
theorem steps_terminal_unique {m n : Nat} {u : State} (ht : steps m s = some t) (hu : steps n s = some u)
    (hterm : t.terminal = true) (hterm' : u.terminal = true) : t = u := by
  obtain hle | hle := Nat.le_total m n
  · obtain ⟨d, rfl⟩ := Nat.exists_eq_add_of_le hle
    rw [steps_add, ht] at hu
    exact (steps_terminal hterm hu).symm
  · obtain ⟨d, rfl⟩ := Nat.exists_eq_add_of_le hle
    rw [steps_add, hu] at ht
    exact steps_terminal hterm' ht

/-! ## The bytes ahead of the cursor -/

/-- Several reads give the bytes that the single ones give. -/
theorem State.readBytes_length_iff {off : Nat} :
    s.readBytes off bs.length = some bs ↔ ∀ j < bs.length, s.bufRead (off + j) = bs[j]? := by
  induction bs generalizing off with
  | nil => simp [State.readBytes]
  | cons b bs ih =>
    rw [List.length_cons, State.readBytes_succ_eq_cons, ih, Nat.forall_lt_succ_left]
    simp [Nat.add_assoc, Nat.add_comm 1]

@[simp] theorem State.setDriver_readBytes (d : Driver) (off n : Nat) :
    (s.setDriver d).readBytes off n = s.readBytes off n :=
  State.readBytes_eq_of_mem (s := s) (t := s.setDriver d) rfl off n

/-- The bytes from the cursor to the end of the buffer. -/
def State.ahead (s : State) : Option (List Byte) := s.readBytes s.cursor s.remaining

/-- A session begins with all of its bytes ahead (R40, R137). -/
theorem State.session_ahead (bs : List Byte) : (State.session bs).ahead = some bs := by
  have hrem : (State.session bs).remaining = bs.length := by simp [State.remaining]
  rw [State.ahead, hrem]
  refine State.readBytes_length_iff.mpr fun j _ => ?_
  simp [State.bufRead, Memory.read_load]

/-- R80: the remaining count is the number of bytes ahead. -/
theorem State.remaining_of_ahead (h : s.ahead = some bs) : s.remaining = bs.length :=
  (State.le_size_of_readBytes h).1.symm

/-- The first byte ahead is the one at the cursor. -/
theorem State.bufRead_of_ahead {b : Byte} {tl : List Byte} (h : s.ahead = some (b :: tl)) :
    s.bufRead s.cursor = some b := by
  have hrem : s.remaining = tl.length + 1 := State.remaining_of_ahead h
  rw [State.ahead, hrem] at h
  exact (State.readBytes_succ_eq_cons.mp h).1

/-- The second byte ahead is the one behind the cursor. -/
theorem State.bufRead_succ_of_ahead {b0 b1 : Byte} {tl : List Byte} (h : s.ahead = some (b0 :: b1 :: tl)) :
    s.bufRead (s.cursor + 1) = some b1 := by
  have hrem : s.remaining = tl.length + 1 + 1 := State.remaining_of_ahead h
  rw [State.ahead, hrem] at h
  simp only [State.readBytes_succ_eq_cons] at h
  exact h.2.1

/-- Where the cursor passes some of the bytes ahead, the others are ahead. -/
theorem State.ahead_of_cursor {xs ys : List Byte} (h : s.ahead = some (xs ++ ys)) (hmem : t.mem = s.mem)
    (hcursor : t.cursor = s.cursor + xs.length) : t.ahead = some ys := by
  have hrem : s.remaining = xs.length + ys.length := by simpa using State.remaining_of_ahead h
  have hrem' : t.remaining = ys.length := by
    simp only [State.remaining] at hrem ⊢
    rw [hmem, hcursor]
    omega
  rw [State.ahead, hrem] at h
  rw [State.ahead, hrem', hcursor, State.readBytes_eq_of_mem hmem]
  exact (State.readBytes_append.mp h).2

/-! ## The instructions of a session -/

/-- `s` with the instructions `is` emitted and their bytes passed. -/
def State.passAll (s : State) (is : List Instr) : State :=
  { s with cursor := s.cursor + (is.flatMap encode).length, log := s.log ++ entriesFrom s.cursor is }

@[simp] theorem State.passAll_mem : (s.passAll is).mem = s.mem := rfl
@[simp] theorem State.passAll_cursor : (s.passAll is).cursor = s.cursor + (is.flatMap encode).length := rfl
@[simp] theorem State.passAll_driver : (s.passAll is).driver = s.driver := rfl
@[simp] theorem State.passAll_log : (s.passAll is).log = s.log ++ entriesFrom s.cursor is := rfl
@[simp] theorem State.passAll_err : (s.passAll is).err = s.err := rfl

theorem State.passAll_nil (s : State) : s.passAll [] = s := by simp [State.passAll, entriesFrom]

theorem State.passAll_cons (s : State) (i : Instr) (is : List Instr) :
    s.passAll (i :: is) = (s.passAll [i]).passAll is := by
  simp [State.passAll, entriesFrom, Nat.add_assoc]

/-- The bytes behind the instructions passed are ahead. -/
theorem State.passAll_ahead (h : s.ahead = some (is.flatMap encode ++ rest)) :
    (s.passAll is).ahead = some rest :=
  State.ahead_of_cursor h rfl rfl

/-- Passing one instruction is what `Dispatch` does with it, back in `Start` (R87). -/
theorem State.passAll_singleton (hd : s.driver = .start) (i : Instr) :
    s.passAll [i] = (((s.emit (recordOf s.cursor i)).advance i.len).setDriver .start) := by
  simp [State.passAll, State.emit, State.advance, State.setDriver, entriesFrom, entryOf, hd]

/-- From `Start`, an instruction ahead is passed in two steps (R85, R87). -/
theorem steps_two_of_decode {i : Instr} (hd : s.driver = .start) (hahead : s.ahead = some bs)
    (hdec : decode bs = .ok i rest) : steps 2 s = some (s.passAll [i]) := by
  obtain ⟨hread, hself, hfits⟩ := readBytes_of_decode hahead hdec
  have hselect : step s = .next (s.setDriver (.dispatch i.sel)) :=
    (stepRunsDecodedInstruction s _ bs rest i hahead hdec).1 hd
  have hemit : step (s.setDriver (.dispatch i.sel)) = .next (s.passAll [i]) := by
    rw [State.passAll_singleton hd]
    exact step_of_readBytes (s := s.setDriver (.dispatch i.sel)) rfl hfits
      (by simpa using hread) hself
  exact steps_trans (steps_one hselect) (steps_one hemit)

/-- From `Start`, encoded instructions ahead are passed in two steps each. -/
theorem steps_passAll (hd : s.driver = .start) (hahead : s.ahead = some (is.flatMap encode ++ rest))
    (hwf : ∀ i ∈ is, i.wf = true) : steps (2 * is.length) s = some (s.passAll is) := by
  induction is generalizing s with
  | nil => rw [State.passAll_nil]; rfl
  | cons i is ih =>
    rw [List.forall_mem_cons] at hwf
    rw [List.flatMap_cons, List.append_assoc] at hahead
    have hfirst : steps 2 s = some (s.passAll [i]) :=
      steps_two_of_decode hd hahead (decodeOfEncodedInstruction i _ hwf.1)
    have hrest := ih (s := s.passAll [i]) hd (State.passAll_ahead (by simpa using hahead)) hwf.2
    rw [State.passAll_cons, List.length_cons, Nat.mul_succ, Nat.add_comm]
    exact steps_trans hfirst hrest

/-! ## The end of a session -/

/-- The error record that a refusal of the bytes `bs` at `off` leaves (R84, R86, R88). -/
def refusalRecord (off : Nat) (bs : List Byte) : DecodeError → Option ErrorRecord
  | .noBytes => none
  | .truncated => some ⟨.truncated, off, bs.headD Memory.unlisted⟩
  | .unknownOpcode b0 => some ⟨.unknownOpcode, off, b0⟩

/-- The reference decoder goes on behind an instruction. -/
theorem disassemble_ok {i : Instr} (h : decode bs = .ok i rest) (fuel off : Nat) :
    disassemble (fuel + 1) off bs =
      ⟨entryOf off i :: (disassemble fuel (off + i.len) rest).entries,
        (disassemble fuel (off + i.len) rest).err⟩ := by
  simp [disassemble, h]

/-- The reference decoder stops where it is refused an instruction. -/
theorem disassemble_refused (h : decode bs = .refused e) (fuel off : Nat) :
    disassemble (fuel + 1) off bs = ⟨[], refusalRecord off bs e⟩ := by
  cases e <;> simp [disassemble, h, refusalRecord]

/-- The terminal state for a refusal. -/
def refusalDriver : DecodeError → Driver
  | .noBytes => .done
  | .truncated => .error
  | .unknownOpcode _ => .error

/-- `s` ended by the refusal `e` of the bytes `rest` ahead. -/
def State.stop (s : State) (rest : List Byte) (e : DecodeError) : State :=
  { s with err := refusalRecord s.cursor rest e, driver := refusalDriver e }

@[simp] theorem State.stop_cursor : (s.stop rest e).cursor = s.cursor := rfl
@[simp] theorem State.stop_driver : (s.stop rest e).driver = refusalDriver e := rfl
@[simp] theorem State.stop_log : (s.stop rest e).log = s.log := rfl
@[simp] theorem State.stop_err : (s.stop rest e).err = refusalRecord s.cursor rest e := rfl

theorem State.stop_terminal : (s.stop rest e).terminal = true := by cases e <;> rfl

theorem refusalDriver_eq_done_iff : refusalDriver e = .done ↔ e = .noBytes := by
  cases e <;> simp [refusalDriver]

/-- R90: the result is the lines, or the error where there is one. -/
theorem State.stop_result : (s.stop rest e).result =
    some ((refusalRecord s.cursor rest e).elim (.success (s.log.map Entry.line)) .failure) := by
  cases e <;> rfl

/-- From `Start`, bytes that begin no instruction end the session in one step, or in two where only `Dispatch`
finds that they are too few (R84, R86, R88). -/
theorem step_of_refused (hd : s.driver = .start) (herr : s.err = none) (hahead : s.ahead = some bs)
    (hdec : decode bs = .refused e) :
    step s = .next (s.stop bs e) ∨
    ∃ sel, step s = .next (s.setDriver (.dispatch sel)) ∧
      step (s.setDriver (.dispatch sel)) = .next (s.stop bs e) ∧ e = .truncated ∧ 2 ≤ bs.length := by
  have hrem := State.remaining_of_ahead hahead
  match bs with
  | [] =>
    cases hdec
    have hstop : s.setDriver .done = s.stop [] .noBytes := by
      simp [State.setDriver, State.stop, refusalRecord, refusalDriver, herr]
    exact .inl (hstop ▸ step_start_empty hd hrem)
  | [b] =>
    cases hdec
    exact .inl ((step_start_lone hd hrem).trans (raise_of_read (State.bufRead_of_ahead hahead)))
  | b0 :: b1 :: tl =>
    have h0 := State.bufRead_of_ahead hahead
    have h1 := State.bufRead_succ_of_ahead hahead
    have htwo : 2 ≤ (b0 :: b1 :: tl).length := by simp
    obtain ⟨hclass, rfl⟩ | ⟨sel, hclass, hlong, rfl⟩ := decode_two_refused hdec
    · exact .inl ((step_start_unknown hd (hrem ▸ htwo) h0 hclass).trans (raise_of_read h0))
    · refine .inr ⟨sel, step_start_known hd (hrem ▸ htwo) h0 hclass, ?_, rfl, htwo⟩
      exact (step_of_not_fits (s := s.setDriver (.dispatch sel)) rfl h0 h1 hclass
        (hrem.trans_lt hlong)).trans (raise_of_read h0)

/-- The terminal state of the session over bytes with the given reading. -/
def sessionEnd (bs : List Byte) (is : List Instr) (rest : List Byte) (e : DecodeError) : State :=
  ((State.session bs).passAll is).stop rest e

section Ends

variable (h : Reading bs is rest e)
include h

/-- A session passes the instructions of its bytes and then stops: its last step is the one that reads
`rest`, from `Start`, or from `Dispatch` where `rest` is an instruction cut short (R91). -/
theorem Reading.session_run : ∃ k s, steps k (State.session bs) = some s ∧
    step s = .next (sessionEnd bs is rest e) ∧
    ((s.driver = .start ∧ k = 2 * is.length) ∨
     (s.driver ≠ .start ∧ k = 2 * is.length + 1 ∧ e = .truncated ∧ 2 ≤ rest.length)) := by
  have hahead : (State.session bs).ahead = some (is.flatMap encode ++ rest) :=
    (State.session_ahead bs).trans (congrArg some h.bytes)
  have hpass := steps_passAll rfl hahead h.wf
  obtain hstep | ⟨sel, hselect, hstep, htrunc, htwo⟩ :=
    step_of_refused (s := (State.session bs).passAll is) rfl rfl (State.passAll_ahead hahead) h.refused
  · exact ⟨_, _, hpass, hstep, .inl ⟨rfl, rfl⟩⟩
  · exact ⟨_, _, steps_trans hpass (steps_one hselect), hstep, .inr ⟨by simp, rfl, htrunc, htwo⟩⟩

/-- The session reaches its end. -/
theorem Reading.steps_sessionEnd : ∃ k, steps k (State.session bs) = some (sessionEnd bs is rest e) := by
  obtain ⟨k, s, hrun, hstep, -⟩ := h.session_run
  exact ⟨k + 1, steps_trans hrun (steps_one hstep)⟩

/-- A terminal state of the session is its end. -/
theorem Reading.eq_sessionEnd {k : Nat} (hrun : steps k (State.session bs) = some t) (hterm : t.terminal = true) :
    t = sessionEnd bs is rest e := by
  obtain ⟨k', hend⟩ := h.steps_sessionEnd
  exact steps_terminal_unique hrun hend hterm State.stop_terminal

/-- The reference decoder yields the entries of the instructions and the record of the refusal. -/
theorem Reading.disassemble_eq {fuel : Nat} (hfuel : is.length < fuel) (off : Nat) :
    disassemble fuel off bs =
      ⟨entriesFrom off is, refusalRecord (off + (is.flatMap encode).length) rest e⟩ := by
  obtain ⟨hwf, rfl, hrefused⟩ := h
  induction is generalizing fuel off with
  | nil =>
    obtain ⟨n, rfl⟩ : ∃ n, fuel = n + 1 := Nat.exists_eq_add_one.mpr hfuel
    exact disassemble_refused hrefused n off
  | cons i is ih =>
    obtain ⟨n, rfl⟩ : ∃ n, fuel = n + 1 := Nat.exists_eq_add_one.mpr (Nat.zero_lt_of_lt hfuel)
    rw [List.forall_mem_cons] at hwf
    have hdec : decode ((i :: is).flatMap encode ++ rest) = .ok i (is.flatMap encode ++ rest) := by
      simpa using decodeOfEncodedInstruction i (is.flatMap encode ++ rest) hwf.1
    rw [disassemble_ok hdec, ih (Nat.lt_of_succ_lt_succ hfuel) (off + i.len) hwf.2, entriesFrom,
      List.flatMap_cons, List.length_append, encode_length, Nat.add_assoc]

end Ends

@[simp] theorem entriesFrom_length (off : Nat) (is : List Instr) : (entriesFrom off is).length = is.length := by
  induction is generalizing off with
  | nil => rfl
  | cons i is ih => simp [entriesFrom, ih]

/-! ## What a logged record says of the bytes -/

/-- A logged entry is of a well-formed instruction whose encoding stands in the session's bytes (R53, R92). -/
theorem encoding_of_mem_log {k : Nat} {entry : Entry} (hrun : steps k (State.session bs) = some t)
    (hmem : entry ∈ t.log) :
    ∃ i, i.wf = true ∧ entry = entryOf entry.record.off i ∧
      ∀ j < (encode i).length, bs[entry.record.off + j]? = (encode i)[j]? := by
  have hinv : t.Inv := steps_keep stepKeepsInv hrun (State.session_inv bs)
  obtain ⟨xs, i, hread, hdec, hentry⟩ := hinv.faithful entry hmem
  obtain ⟨hwf, hxs⟩ := encodeOfDecodedBytes _ _ _ hdec
  rw [List.append_nil] at hxs
  subst hxs
  rw [← (State.le_size_of_readBytes hread).1, State.readBytes_length_iff] at hread
  exact ⟨i, hwf, hentry, fun j hj => (bufferIsNeverWritten.2 bs k t hrun _).symm.trans (hread j hj)⟩

/-- One more digit counts ten times the digits before it. -/
theorem decimalValue_concat (ds : List Char) (c : Char) :
    decimalValue (ds ++ [c]) = 10 * decimalValue ds + (c.toNat - 48) := by
  simp [decimalValue]

theorem digitChar_toNat : ∀ n < 10, (digitChar n).toNat = 48 + n := by decide

/-- As many digits as a number has give the number. -/
theorem decimalValue_decDigits {fuel n : Nat} (h : n < 10 ^ fuel) : decimalValue (decDigits fuel n) = n := by
  induction fuel generalizing n with
  | zero =>
    obtain rfl : n = 0 := by simpa using h
    rfl
  | succ fuel ih =>
    unfold decDigits
    split
    · next hdigit => simp [decimalValue, digitChar_toNat n hdigit]
    · rw [decimalValue_concat, digitChar_toNat _ (Nat.mod_lt n (by decide)), ih (by rw [pow_succ] at h; omega)]
      omega

/-- R21: the decimal text of a 16-bit value stands for it. -/
theorem decimalValue_dec (v : Half) : decimalValue (dec v).toList = v.toNat := by
  rw [dec, String.toList_ofList]
  exact decimalValue_decDigits (by have := v.isLt; omega)

/-! ## The statements about whole sessions -/

/-- Settles O39: two steps for each instruction of the bytes' reading, and one or two for the rest. -/
theorem sessionTerminates : Obligations.SessionTerminates := by
  intro bs
  obtain ⟨is, rest, e, h⟩ := exists_reading bs
  obtain ⟨k, s, hrun, hstep, hcount⟩ := h.session_run
  have hbound := h.length_le
  have hlog : (sessionEnd bs is rest e).log.length = is.length := by simp [sessionEnd]
  refine ⟨k, s, _, hrun, hstep, State.stop_terminal, ?_⟩
  rw [hlog]
  obtain ⟨hd, rfl⟩ | ⟨hd, rfl, rfl, htwo⟩ := hcount
  · exact ⟨by omega, fun _ => ⟨rfl, by omega⟩, fun _ _ => rfl, fun _ hne => absurd hd hne⟩
  · have hnotDone : (sessionEnd bs is rest .truncated).driver ≠ .done := by simp [sessionEnd, refusalDriver]
    exact ⟨by omega, fun hdone => absurd hdone hnotDone, fun _ hstart => absurd hstart hd, fun _ _ => rfl⟩

/-- Settles O40: the session and the reference decoder both follow the bytes' reading. -/
theorem sessionRefinesDisassembly : Obligations.SessionRefinesDisassembly := by
  intro bs
  obtain ⟨is, rest, e, h⟩ := exists_reading bs
  obtain ⟨k, hrun⟩ := h.steps_sessionEnd
  have hbound := h.length_le
  rw [h.disassemble_eq (fuel := bs.length + 1) (by omega) 0]
  refine ⟨k, _, hrun, State.stop_terminal, ?_, ?_, ?_⟩
  · simp [sessionEnd]
  · simp [sessionEnd]
  · rw [sessionEnd, State.stop_result]
    cases e <;> simp [refusalRecord]

/-- Settles O41: the session is at the end its bytes' reading gives, and `Done` says that no byte is left. -/
theorem successTilesTheBuffer : Obligations.SuccessTilesTheBuffer := by
  intro bs k t hrun hdone
  obtain ⟨is, rest, e, h⟩ := exists_reading bs
  obtain rfl := h.eq_sessionEnd hrun (by simp [State.terminal, hdone])
  obtain rfl : e = .noBytes := refusalDriver_eq_done_iff.mp hdone
  obtain rfl : rest = [] := eq_nil_of_decode_noBytes h.refused
  have hbytes : bs = is.flatMap encode := by simpa using h.bytes
  refine ⟨is, h.wf, hbytes, by simp [sessionEnd], by simp [sessionEnd, ← hbytes], rfl, ?_⟩
  simp [sessionEnd, State.stop_result, refusalRecord]

/-- Settles O42: a list of encodings is its own reading, with nothing behind it. -/
theorem encodedBufferDecodesWhole : Obligations.EncodedBufferDecodesWhole := by
  intro is hwf
  obtain ⟨k, s, hrun, hstep, ⟨-, rfl⟩ | ⟨-, -, htrunc, -⟩⟩ := (Reading.of_encodings hwf).session_run
  · exact ⟨_, steps_trans hrun (steps_one hstep), rfl, by simp [sessionEnd], by simp [sessionEnd], rfl⟩
  · cases htrunc

/-- Settles O44: the record is the one of an instruction whose bytes stand at its offset; a lone byte is `Start`'s
first error. -/
theorem recordRangeAndConsumption : Obligations.RecordRangeAndConsumption := by
  refine ⟨fun bs k t hrun entry hmem => ?_, fun b => ?_⟩
  · obtain ⟨i, hwf, hentry, hbytes⟩ := encoding_of_mem_log hrun hmem
    generalize entry.record.off = off at hentry hbytes
    subst hentry
    cases i with
    | movM0 | movM8 | movM16 | movRR => simp [entryOf, recordOf]
    | movI8 reg imm =>
      have himm : imm.toNat = (loByte imm).toNat := by rw [← zext16_toNat, zext16_loByte hwf]
      refine ⟨fun _ => ⟨by simpa [Instr.wf, fitsByte] using hwf, _, hbytes 1 (by simp [encode]), ?_⟩,
        fun hw => absurd hw (by simp)⟩
      rw [decimalValue_dec, himm]
    | movI16 reg imm =>
      refine ⟨fun hw => absurd hw (by simp), fun _ => ⟨Nat.le_of_lt_succ imm.isLt, _, _,
        hbytes 1 (by simp [encode]), hbytes 2 (by simp [encode]), ?_⟩⟩
      rw [decimalValue_dec, ← le16_toNat, le16_loByte_hiByte]
  · have hlone : (State.session [b]).remaining = 1 := rfl
    obtain ⟨b', hread, hstep⟩ := (startErrors (State.session [b]) rfl).1 hlone
    obtain rfl : b = b' := by simpa [State.bufRead, Memory.read_load] using hread
    exact ⟨_, steps_one hstep, rfl, rfl, rfl⟩

end Sys2Proof.Machine
end

section
/-! PROOFS. The register/memory move family: what each of its four instructions emits where it fits, and the two
encodings of one register move (R100 to R104). -/

namespace Sys2Proof.Machine

/-! ## The lines of register/memory moves (R75, R100) -/

/-- Outside mod 11 the r/m id selects memory, whether a displacement is there or not (R68, R75). -/
theorem render_memory {r : RecRM} (h : r.mod ≠ 0b11#2) :
    render (.regMem r) =
      if r.d = 1#1 then movLine (regName r.w r.reg) (memText r.rm r.disp)
      else movLine (memText r.rm r.disp) (regName r.w r.reg) := by
  simp only [render, renderRM, rmOperand, if_neg h]

/-- At mod 11 the r/m id selects a register, named with the `w` of the other one (R104). -/
theorem render_movRR (off : Nat) (d w : BitVec 1) (reg rm : BitVec 3) :
    render (recordOf off (.movRR d w reg rm)) =
      if d = 1#1 then movLine (regName w reg) (regName w rm) else movLine (regName w rm) (regName w reg) := by
  simp only [recordOf, render, renderRM, rmOperand, if_true]

/-! ## Completion of an instruction (R87, R93) -/

/-- In `Dispatch` of its class, an instruction that fits appends its record and line and passes its bytes. -/
theorem exec_of_fits {i : Instr} {s : State} {line : String} (hd : s.driver = .dispatch i.sel)
    (hfits : i.len ≤ s.remaining) (hline : render (recordOf s.cursor i) = line) :
    exec i s = .next { s with
      log := s.log ++ [⟨recordOf s.cursor i, line⟩]
      cursor := s.cursor + i.len
      driver := .start } := by
  have hrun := dispatchRecord_of_fits (r := recordOf s.cursor i) (by simpa using hd) (by simpa using hfits)
  rw [exec_eq, hrun, recordOf_len, ← hline]
  rfl

/-! ## The direction bit in the encoding (R58) -/

/-- The first byte of format RM holds both of its bits. -/
theorem headRM_inj_iff {d d' w w' : BitVec 1} : headRM d w = headRM d' w' ↔ d = d' ∧ w = w' := by
  rw [headRM, headRM, append_inj_iff, append_inj_iff, and_iff_right rfl]

/-! ## The statements -/

/-- Settles O18: mod 00 selects memory and has no displacement. -/
theorem movM0Emits : Obligations.MovM0Emits :=
  fun _ _ _ _ _ hd hfits => exec_of_fits hd hfits (render_memory (by simp))

/-- Settles O19: mod 01 selects memory, and the displacement is part of its text whatever its value. -/
theorem movM8Emits : Obligations.MovM8Emits :=
  fun _ _ _ _ _ _ hd hfits => exec_of_fits hd hfits (render_memory (by simp))

/-- Settles O20: mod 10 selects memory, with the two-byte displacement in its text. -/
theorem movM16Emits : Obligations.MovM16Emits :=
  fun _ _ _ _ _ _ hd hfits => exec_of_fits hd hfits (render_memory (by simp))

/-- Settles O21: mod 11 selects a register. -/
theorem movRREmits : Obligations.MovRREmits :=
  fun d w reg rm s hd hfits => exec_of_fits hd hfits (render_movRR s.cursor d w reg rm)

/-- Settles O51: `b` is the destination of both, and the first bytes differ in the direction bit. -/
theorem twoEncodingsOneRegisterLine : Obligations.TwoEncodingsOneRegisterLine := by
  refine fun off w a b => ⟨?_, fun heq => ?_⟩
  · calc render (recordOf off (.movRR 0#1 w a b))
      _ = movLine (regName w b) (regName w a) := render_movRR off 0#1 w a b
      _ = render (recordOf off (.movRR 1#1 w b a)) := (render_movRR off 1#1 w b a).symm
  · obtain ⟨hhead, -⟩ := List.cons.inj heq
    obtain ⟨hdir, -⟩ := headRM_inj_iff.mp hhead
    exact absurd hdir (by decide)

end Sys2Proof.Machine
end

section
/-! PROOFS. The move-immediate family: what each of its two instructions emits where it fits (R110 to R112). -/

namespace Sys2Proof.Machine

/-! ## The line of an immediate move (R76, R110) -/

/-- The register is always the destination, and the immediate stands in decimal for either width (R110). -/
theorem render_immReg (r : RecIMM) : render (.immReg r) = movLine (regName r.w r.reg) (dec r.imm) := rfl

/-! ## The statements -/

/-- Settles O22: the 8-bit form names its register with `w = 0`. -/
theorem movI8Emits : Obligations.MovI8Emits :=
  fun reg imm s hd hfits => exec_of_fits hd hfits (render_immReg ⟨s.cursor, 2, 0#1, reg, imm⟩)

/-- Settles O23: the 16-bit form names its register with `w = 1`. -/
theorem movI16Emits : Obligations.MovI16Emits :=
  fun reg imm s hd hfits => exec_of_fits hd hfits (render_immReg ⟨s.cursor, 3, 1#1, reg, imm⟩)

end Sys2Proof.Machine
end

section
/-! PROOFS. Errors: when the decoder refuses and by which name (R114, R116, R123), the one way into `Error` (R118),
and that an error keeps exactly what was decoded before it (R119, R121). -/

namespace Sys2Proof

/-! ## The two refusals of two bytes or more -/

/-- R116: the unknown opcode is refused before any length is looked at, and nothing else is refused so. -/
theorem decode_eq_unknownOpcode_iff (b0 b1 : Byte) (tl : List Byte) :
    decode (b0 :: b1 :: tl) = .refused (.unknownOpcode b0) ↔ classify b0 = .unknown := by
  constructor
  · intro h
    obtain ⟨hclass, -⟩ | ⟨_, -, -, he⟩ := decode_two_refused h
    · exact hclass
    · cases he
  · intro hclass
    simp [decode, hclass]

/-- R114: of two bytes or more, those of a known class are truncated exactly where its length exceeds them. -/
theorem decode_eq_truncated_iff (b0 b1 : Byte) (tl : List Byte) :
    decode (b0 :: b1 :: tl) = .refused .truncated ↔
      ∃ sel, classify b0 = .known sel ∧ tl.length + 2 < instrLen sel b0 b1 := by
  constructor
  · intro h
    obtain ⟨-, he⟩ | ⟨sel, hclass, hlong, -⟩ := decode_two_refused h
    · cases he
    · exact ⟨sel, hclass, hlong⟩
  · rintro ⟨sel, hclass, hlong⟩
    cases hdec : decode (b0 :: b1 :: tl) with
    | ok i rest =>
      obtain ⟨c0, c1, tl', hbytes, hclass', hlen, htotal, -⟩ := decode_ok hdec
      cases hbytes
      obtain rfl : sel = i.sel := by simpa using hclass.symm.trans hclass'
      simp only [List.length_cons] at htotal
      omega
    | refused e =>
      obtain ⟨hunknown, -⟩ | ⟨_, -, -, rfl⟩ := decode_two_refused hdec
      · cases hclass.symm.trans hunknown
      · rfl

/-- Settles O11: a lone byte is refused before its class is looked at, two or more by class and length. -/
theorem decoderRefusals : Obligations.DecoderRefusals :=
  ⟨fun _ => rfl, fun b0 b1 tl => ⟨decode_eq_unknownOpcode_iff b0 b1 tl, decode_eq_truncated_iff b0 b1 tl⟩⟩

end Sys2Proof

namespace Sys2Proof.Machine

/-! ## What the state in `Error` says of the session -/

/-- Settles O30: of the four outcomes only the failing one ends in `Error`. -/
theorem errorEntry : Obligations.ErrorEntry := by
  intro s t hstep herror
  cases Transition.of_step hstep with
  | finished => cases herror
  | classified => cases herror
  | emitted => cases herror
  | @failed k b notDone notError read justified =>
    exact ⟨k, b, read, justified, notDone, notError, rfl⟩

/-- In `Error` the record names the cursor and the byte that the session's bytes have there (R118, R119). -/
theorem err_of_session {bs : List Byte} {k : Nat} {t : State} (hrun : steps k (State.session bs) = some t)
    (herror : t.driver = .error) :
    ∃ kind b, t.err = some ⟨kind, t.cursor, b⟩ ∧ bs[t.cursor]? = some b := by
  have hinv : t.Inv := steps_keep stepKeepsInv hrun (State.session_inv bs)
  have hok := hinv.driverOk
  simp only [driverConsistent, herror] at hok
  obtain ⟨kind, b, herr, hread, -⟩ := hok
  exact ⟨kind, b, herr, (bufferIsNeverWritten.2 bs k t hrun _).symm.trans hread⟩

/-- Settles O43: the invariant gives the record; the bytes' reading gives the bytes before it and the log. -/
theorem errorIsPrecise : Obligations.ErrorIsPrecise := by
  intro bs k t hrun herror
  obtain ⟨kind, b, herr, hbyte⟩ := err_of_session hrun herror
  obtain ⟨is, rest, e, h⟩ := exists_reading bs
  have hend : t = sessionEnd bs is rest e := h.eq_sessionEnd hrun (by simp [State.terminal, herror])
  have hcursor : t.cursor = (is.flatMap encode).length := by simp [hend, sessionEnd]
  obtain ⟨hinside, -⟩ := List.getElem?_eq_some_iff.mp hbyte
  refine ⟨⟨kind, t.cursor, b⟩, is, herr, rfl, hinside, hbyte, ?_, ?_, ?_⟩
  · calc bs.take t.cursor
      _ = (is.flatMap encode ++ rest).take (is.flatMap encode).length := by rw [hcursor, ← h.bytes]
      _ = is.flatMap encode := List.take_left
  · simp [hend, sessionEnd]
  · simp [State.result, herror, herr]

end Sys2Proof.Machine
end

section
/-! PROOFS. What the host sees of the block: STATUS and the state after reset (R35, R40), the decimal text and the two
ROMs (R21, R72, R73), and the length test that stands in every meaning (log entry 18). -/

namespace Sys2Proof.Machine

/-! ## STATUS (R35) -/

section Status

variable {c : Config} {s : State} {d : Driver} {e : ErrorRecord}

@[simp] theorem Driver.code_eq_start_iff : d.code = 0#2 ↔ d = .start := by cases d <;> simp [Driver.code]

@[simp] theorem Driver.code_eq_dispatch_iff : d.code = 1#2 ↔ ∃ sel, d = .dispatch sel := by
  cases d <;> simp [Driver.code]

@[simp] theorem Driver.code_eq_done_iff : d.code = 2#2 ↔ d = .done := by cases d <;> simp [Driver.code]

@[simp] theorem Driver.code_eq_error_iff : d.code = 3#2 ↔ d = .error := by cases d <;> simp [Driver.code]

@[simp] theorem Driver.selCode_eq_one_iff : d.selCode = 1#1 ↔ d = .dispatch .imm := by
  cases d with
  | dispatch sel => cases sel <;> simp [Driver.selCode]
  | start | done | error => simp [Driver.selCode]

@[simp] theorem ErrKind.code_eq_one_iff {k : ErrKind} : k.code = 1#2 ↔ k = .truncated := by
  cases k <;> simp [ErrKind.code]

@[simp] theorem ErrKind.code_eq_two_iff {k : ErrKind} : k.code = 2#2 ↔ k = .unknownOpcode := by
  cases k <;> simp [ErrKind.code]

theorem ErrKind.code_ne_three (k : ErrKind) : k.code ≠ 3#2 := by cases k <;> simp [ErrKind.code]

/-- R15: a register that can hold `N` shows every offset up to `N` exactly. -/
theorem toNat_ofNat_of_admits {n m : Nat} (hadmits : c.admits n) (hle : m ≤ n) :
    (BitVec.ofNat c.cursorWidth m).toNat = m := by
  simpa using toNat_ofNat_add_of_le (b := 0) hle hadmits

/-- With no error record, the fields of STATUS that show it are 0. -/
theorem status_of_err_none (h : s.err = none) :
    (status c s).errKind = 0#2 ∧ (status c s).errByte = 0#8 ∧ (status c s).errOffset.toNat = 0 := by
  simp [status, h]

/-- With an error record, the fields of STATUS that show it are its kind's code, its byte and its offset. -/
theorem status_of_err_some (h : s.err = some e) :
    (status c s).errKind = e.kind.code ∧ (status c s).errByte = e.byte ∧
      (status c s).errOffset = BitVec.ofNat _ e.offset := by
  simp [status, h]

theorem status_errKind_ne_three : (status c s).errKind ≠ 3#2 := by
  cases herr : s.err with
  | none => simp [(status_of_err_none herr).1]
  | some e => rw [(status_of_err_some herr).1]; exact e.kind.code_ne_three

/-- In `Error` there is a record, and its offset is the cursor (R27, R118). -/
theorem State.Inv.err_of_error (h : s.Inv) (herror : s.driver = .error) :
    ∃ e, s.err = some e ∧ e.offset = s.cursor := by
  have hok := h.driverOk
  simp only [driverConsistent, herror] at hok
  obtain ⟨k, b, herr, -⟩ := hok
  exact ⟨_, herr, rfl⟩

end Status

/-! ## Decimal text (R21) -/

theorem digitChar_bounds {n : Nat} (h : n < 10) : 48 ≤ (digitChar n).toNat ∧ (digitChar n).toNat ≤ 57 := by
  rw [digitChar_toNat n h]
  omega

theorem bounds_of_mem_decDigits {fuel n : Nat} : ∀ ch ∈ decDigits fuel n, 48 ≤ ch.toNat ∧ ch.toNat ≤ 57 := by
  induction fuel generalizing n with
  | zero => simp [decDigits]
  | succ fuel ih =>
    intro ch hch
    unfold decDigits at hch
    split at hch
    · next hlt =>
      obtain rfl := List.mem_singleton.mp hch
      exact digitChar_bounds hlt
    · obtain hch | hch := List.mem_append.mp hch
      · exact ih ch hch
      · obtain rfl := List.mem_singleton.mp hch
        exact digitChar_bounds (Nat.mod_lt n (by decide))

/-- Where the digits are enough for the number, only the text of 0 begins with a 0: the digits before the last are
those of `n / 10`, which is not 0 where there is more than one digit. -/
theorem eq_zero_of_decDigits_head {fuel n : Nat} (h : n < 10 ^ fuel)
    (hhead : (decDigits fuel n).head? = some '0') : n = 0 := by
  induction fuel generalizing n with
  | zero => simpa using h
  | succ fuel ih =>
    unfold decDigits at hhead
    split at hhead
    · next hlt =>
      have hchar : digitChar n = '0' := by simpa using hhead
      have hval : 48 + n = 48 := by rw [← digitChar_toNat n hlt, hchar]; rfl
      omega
    · next hge =>
      have hfront : n / 10 < 10 ^ fuel := by rw [pow_succ] at h; omega
      have hne : decDigits fuel (n / 10) ≠ [] := by
        intro hnil
        have hvalue : n / 10 = 0 := by rw [← decimalValue_decDigits hfront, hnil]; rfl
        omega
      rw [List.head?_append_of_ne_nil _ hne] at hhead
      have := ih hfront hhead
      omega

theorem dec_zero : dec 0#16 = "0" := rfl

/-! ## An instruction that does not fit (R88, R118) -/

/-- In `Dispatch` of the record's class, a record that does not fit raises TRUNCATED and does nothing else. -/
theorem dispatchRecord_of_not_fits {r : DecodedRecord} {s : State} (hd : s.driver = .dispatch r.sel)
    (hlong : s.remaining < r.len) : dispatchRecord r s = raise .truncated s := by
  simp [dispatchRecord, hd, State.fits, hlong]

/-! ## The statements -/

/-- Settles O48: the record of `Error` stands at the cursor, and the register holds every offset up to `N`. -/
theorem statusShowsTheState : Obligations.StatusShowsTheState := by
  intro c s hinv hadmits
  have hcursor := toNat_ofNat_of_admits hadmits hinv.cursorLe
  refine ⟨hcursor, Driver.code_eq_start_iff, Driver.code_eq_dispatch_iff, Driver.code_eq_done_iff,
    Driver.code_eq_error_iff, Driver.selCode_eq_one_iff, status_errKind_ne_three,
    fun hd => status_of_err_none (hinv.err_eq_none hd), fun herror => ?_⟩
  obtain ⟨e, herr, hoffset⟩ := hinv.err_of_error herror
  obtain ⟨hkind, hbyte, hoff⟩ := status_of_err_some (c := c) herr
  refine ⟨e, herr, hkind, ?_, ?_, hbyte, ?_⟩
  · rw [hkind, ErrKind.code_eq_one_iff]
  · rw [hkind, ErrKind.code_eq_two_iff]
  · rw [hoff, hoffset, hcursor]

/-- Settles O50: five digits are enough for 16 bits, and a text that begins with 0 is the one of 0. -/
theorem decimalIsExact : Obligations.DecimalIsExact := by
  intro v
  have hzero : v = 0#16 → dec v = "0" := fun h => h ▸ dec_zero
  refine ⟨?_, decimalValue_dec v, fun hhead => hzero ?_, hzero⟩
  · rw [dec, String.toList_ofList]
    exact bounds_of_mem_decDigits
  · rw [dec, String.toList_ofList] at hhead
    exact BitVec.eq_of_toNat_eq (eq_zero_of_decDigits_head (by have := v.isLt; omega) hhead)

/-- Settles O24: exec is the shared transition at the instruction's record, whose length test fails. -/
theorem execTruncatesWhereItDoesNotFit : Obligations.ExecTruncatesWhereItDoesNotFit := by
  intro i s b0 hd h0 hlong
  calc exec i s
    _ = dispatchRecord (recordOf s.cursor i) s := exec_eq i s
    _ = raise .truncated s := dispatchRecord_of_not_fits (by simpa using hd) (by simpa using hlong)
    _ = .next ((s.setErr ⟨.truncated, s.cursor, b0⟩).setDriver .error) := raise_of_read h0

/-- Settles O47: a reset keeps the buffer, so it reads as before; every other field is the constant of R40. -/
theorem resetBeginsASession : Obligations.ResetBeginsASession :=
  fun s _ => ⟨rfl, rfl, rfl, rfl, State.bufRead_eq_of_mem s.restart_mem, rfl, rfl⟩

/-- Settles O49, by reading the 24 entries. -/
theorem romContents : Obligations.RomContents := ⟨by decide, by decide, by decide⟩

end Sys2Proof.Machine
end
